-- ==== Sys2Proof/Word.lean ====
section
/-! DEFINITION. The widths of the block's values (spec/00_scope.md R8: all values are unsigned, bit 0 is the least
significant bit). -/

namespace Sys2Proof

/-- A byte: 8 bits, values 0x00 to 0xFF (R8). -/
abbrev Byte := BitVec 8

/-- The CRC register and the 16-bit CRC field (R6 `CRC_W`, R80). -/
abbrev Crc := BitVec 16

/-- The 11-bit input vector sampled at one rising edge of `clk`, format `CYC` (R60). -/
abbrev InputVector := BitVec 11

end Sys2Proof
end

