-- ==== Sys2Proof/Config.lean ====
section
/-! DEFINITION. The block's fixed parameters, the table of spec/00_scope.md R6. None is programmable (R28), and the spec
leaves no value of the block open, so nothing here is opaque. `CRC_REFIN`, `CRC_REFOUT` and
`CRC_XOROUT` (no reflection, no final XOR) have no constant: they say what crc16 does not do (Machine/Crc.lean). The two open parameters of R7 are on the host side and are
arguments of the host functions (Machine/Pipeline.lean). -/

namespace Sys2Proof.Config

/-- `FRAME_LEN` and `BUF_CAPACITY`: 8 bytes (R6). -/
abbrev frameLen : Nat := 8

/-- `SENTINEL`: 0x7E, the byte at both ends of a frame (R6). -/
def sentinel : Byte := 0x7E#8

/-- `START_OFFSET`: the start sentinel's position (R6). -/
abbrev startOffset : Fin 8 := 0

/-- Offset of the sensor type code (R63). -/
abbrev typeOffset : Fin 8 := 1

/-- Offset of the device id (R63). -/
abbrev dispIdOffset : Fin 8 := 2

/-- Offset of the query/command code (R63). -/
abbrev queryOffset : Fin 8 := 3

/-- Offset of the data value (R63). -/
abbrev dataOffset : Fin 8 := 4

/-- `CRC_HI_OFFSET`: the CRC's high byte (R6, R43). -/
abbrev crcHiOffset : Fin 8 := 5

/-- `CRC_LO_OFFSET`: the CRC's low byte (R6, R43). -/
abbrev crcLoOffset : Fin 8 := 6

/-- `END_OFFSET`: the end sentinel's position (R6). -/
abbrev endOffset : Fin 8 := 7

/-- `CRC_FIRST`: first offset of the CRC's scope (R6). -/
abbrev crcFirst : Nat := 1

/-- `CRC_LAST`: last offset of the CRC's scope, inclusive (R6). -/
abbrev crcLast : Nat := 4

/-- `CRC_POLY` (R6, R80). -/
def crcPoly : Crc := 0x1021#16

/-- `CRC_INIT` (R6, R80). -/
def crcInit : Crc := 0xFFFF#16

/-- `TYPE_TEMPERATURE` (R6, R135). -/
def typeTemperature : Byte := 0x01#8

/-- `TYPE_HUMIDITY` (R6, R135). -/
def typeHumidity : Byte := 0x02#8

end Sys2Proof.Config
end

