-- ==== Sys2Proof/Syntax.lean ====
section
/-! DEFINITION. The operations the input vector decodes to, one constructor per row of spec/opcode_table.json
(spec/30_encoding.md R61). RESET, IDLE and TAKE have no operand: they ignore `in_data` (R62). -/

namespace Sys2Proof

/-- One operation of one step (R61). -/
inductive Instr where
  /-- `RESET` (R190). -/
  | reset
  /-- `IDLE` (R112). -/
  | idle
  /-- `TAKE` (R137). -/
  | take
  /-- `FEED b` (R111). -/
  | feed (b : Byte)
  /-- `FEED_TAKE b` (R113). -/
  | feedTake (b : Byte)
deriving DecidableEq, Repr

end Sys2Proof
end

