-- ==== Sys2Proof/WellFormed.lean ====
section
/-! DEFINITION. What is well formed: an operation, a number offered as an input vector, and a line of the spec's
test-program notation (spec/30_encoding.md R60 to R62, R69, R70). -/

namespace Sys2Proof

/-- Every operation is well formed: its only operand is a byte and all 256 values are legal (R62); the input vector has
no illegal or reserved form (R61, R67). -/
def Instr.wf : Instr → Bool
  | .reset => true
  | .idle => true
  | .take => true
  | .feed _ => true
  | .feedTake _ => true

/-- A number is an input vector when it fits the 11 bits of format `CYC` (R60, R68). -/
def wordWf (w : Nat) : Bool := w < 2 ^ 11

/-- The words of the notation: the five mnemonics (R69) and the three pseudo-instructions (R70). -/
inductive Mnemonic where
  | reset
  | idle
  | take
  | feed
  | feedTake
  | feeds
  | frame
  | framec
deriving DecidableEq, Repr

/-- One line of the notation as written: a word and its operands, still plain numbers (R69). -/
structure SourceLine where
  word : Mnemonic
  operands : List Nat
deriving DecidableEq, Repr

/-- How many operands a word takes: none for RESET, IDLE and TAKE, one for FEED and FEED_TAKE (R69); FEEDS takes one or
more, FRAME four, FRAMEC six (R70). -/
def SourceLine.countOk (l : SourceLine) : Bool :=
  match l.word with
  | .reset => l.operands.length == 0
  | .idle => l.operands.length == 0
  | .take => l.operands.length == 0
  | .feed => l.operands.length == 1
  | .feedTake => l.operands.length == 1
  | .feeds => 1 ≤ l.operands.length
  | .frame => l.operands.length == 4
  | .framec => l.operands.length == 6

/-- Every operand is a byte (R69). -/
def SourceLine.bytesOk (l : SourceLine) : Bool := l.operands.all (· < 256)

/-- A well-formed line: the right number of operands, each a byte (R69, R70). -/
def SourceLine.wf (l : SourceLine) : Bool := l.countOk && l.bytesOk

end Sys2Proof
end

