-- ==== Sys2Proof/Decode.lean ====
section
/-! DEFINITION. Decoding of the input vector, total on all 2048 vectors (spec/30_encoding.md R60, R61), decoding of
numbers, which refuses by name what is no vector, and the encoder. -/

namespace Sys2Proof

/-! ### The fields of a vector (R60) -/

/-- `rst`, bit 10. -/
def InputVector.rst (v : InputVector) : Bool := v.getLsbD 10

/-- `in_valid`, bit 9. -/
def InputVector.inValid (v : InputVector) : Bool := v.getLsbD 9

/-- `out_ready`, bit 8. -/
def InputVector.outReady (v : InputVector) : Bool := v.getLsbD 8

/-- `in_data`, bits 7:0. -/
def InputVector.inData (v : InputVector) : Byte := v.extractLsb' 0 8

/-- One field bit at its place in the vector. -/
def vectorBit (b : Bool) (pos : Nat) : InputVector := (if b then 1#11 else 0#11) <<< pos

/-- `vec = (rst << 10) | (in_valid << 9) | (out_ready << 8) | in_data` (R60). -/
def packVector (rst inValid outReady : Bool) (inData : Byte) : InputVector :=
  vectorBit rst 10 ||| vectorBit inValid 9 ||| vectorBit outReady 8 ||| inData.setWidth 11

/-! ### Decoding -/

/-- The operation of a vector (R61). `rst` takes priority over every other bit (R174). -/
def decode (v : InputVector) : Instr :=
  if InputVector.rst v then .reset
  else
    match InputVector.inValid v, InputVector.outReady v with
    | false, false => .idle
    | false, true => .take
    | true, false => .feed (InputVector.inData v)
    | true, true => .feedTake (InputVector.inData v)

/-- Why a number is not decoded. -/
inductive DecodeReject where
  /-- The number has a bit above bit 10: it is no input vector (R68: the vector is always 11 bits). Safe. -/
  | notAnInputVector
deriving DecidableEq, Repr

/-- Decoding of any number: the operation of the vector it writes, or a refusal by name. -/
def decodeWord (w : Nat) : Except DecodeReject Instr :=
  if wordWf w then .ok (decode (BitVec.ofNat 11 w)) else .error .notAnInputVector

/-- The same as an option, on the low `nbits` bits of `w` (every bit above them is 0). Bit 0 of the opcode table is bit 0
of the vector (R60). -/
def decodeTableWord (nbits w : Nat) : Option Instr :=
  match decodeWord (w % 2 ^ nbits) with
  | .ok i => some i
  | .error _ => none

/-! ### Encoding -/

/-- The vector of an operation as the notation writes it (R69); the bits that RESET, IDLE and TAKE ignore are 0. -/
def encode : Instr → InputVector
  | .reset => packVector true false false 0
  | .idle => packVector false false false 0
  | .take => packVector false false true 0
  | .feed b => packVector false true false b
  | .feedTake b => packVector false true true b

/-- The opcode table's mask column (R61). -/
def Instr.opMask : Instr → InputVector
  | .reset => 0x400#11
  | .idle => 0x700#11
  | .take => 0x700#11
  | .feed _ => 0x700#11
  | .feedTake _ => 0x700#11

/-- The opcode table's match column (R61). -/
def Instr.opMatch : Instr → InputVector
  | .reset => 0x400#11
  | .idle => 0x000#11
  | .take => 0x100#11
  | .feed _ => 0x200#11
  | .feedTake _ => 0x300#11

/-- The operand field an operation carries, if it carries one (R62). -/
def Instr.operand : Instr → Option Byte
  | .reset => none
  | .idle => none
  | .take => none
  | .feed b => some b
  | .feedTake b => some b

end Sys2Proof
end

