-- ==== Sys2Proof/Machine/State.lean ====
section
/-! DEFINITION. The state of the block (spec/10_state.md R20 to R25), its reset value (R32), and the reasons for which
something of the model stops. The spec's ⊥ ("holds no value", R11) is `none`: no value is ever given to it. -/

namespace Sys2Proof.Machine

/-- The values of `res_code` (R25, R65). -/
inductive ResCode where
  /-- No byte was accepted at the previous step. -/
  | none
  /-- The byte was buffered; the attempt continues. -/
  | incomplete
  /-- The byte closed a frame whose offsets 0 and 7 are the sentinel. -/
  | complete
  /-- The byte was rejected as a start, or closed an attempt with a byte other than the sentinel. -/
  | discarded
deriving DecidableEq, Repr

/-- Eight cells, each a byte or ⊥ (R20, R22, R24). -/
abbrev Cells := Vector (Option Byte) 8

/-- Eight cells without a value. -/
def bottomCells : Cells := Vector.replicate 8 none

/-- What the outside world does to the input pins at one rising edge of `clk`. -/
inductive Edge where
  /-- One driver; the sampled vector (R60). -/
  | vector (v : InputVector)
  /-- Two or more agents drive the inputs of the instance: outside the spec (R198, U8). -/
  | contended
deriving DecidableEq, Repr

/-- The block's registers, exactly those of R20, and the model's own field `inputs`: the edges still to come, oldest
first (DESIGN CHOICE, log entry 3). -/
structure State where
  /-- `len`, 3 bits: bytes buffered in the current attempt, and the next write index (R21, R26). -/
  len : Fin 8
  /-- `buf[0..7]`, the frame buffer (R22, R40). -/
  buf : Cells
  /-- `out_valid` (R24). -/
  outValid : Bool
  /-- `out_frame[0..7]`, the completed frame (R24). -/
  outFrame : Cells
  /-- `res_code` (R25). -/
  resCode : ResCode
  /-- The model's field: what the host will drive, edge by edge. -/
  inputs : List Edge
deriving DecidableEq, Repr

/-- The state right after a step with `rst = 1` (R32). Nothing is queued at the inputs (log entry 3). -/
def State.reset : State :=
  { len := 0
    buf := bottomCells
    outValid := false
    outFrame := bottomCells
    resCode := .none
    inputs := [] }

/-- What one accepted byte does: `assemble(len, buf, b) → (len', buf', res, frame)` (R102). -/
structure Assembly where
  len : Fin 8
  buf : Cells
  res : ResCode
  frame : Option Cells
deriving DecidableEq, Repr

/-- The outputs that are ⊥ while `out_valid = 0` (R31, R196). -/
inductive OutSignal where
  | outFrame
  | outType
  | outDispid
  | outQuery
  | outData
  | outCrcAsserted
  | outCrcComputed
  | outCrcValid
  | outTypeClass
deriving DecidableEq, Repr

/-- Faults. No step of the block raises one (R170); they are the host's errors. -/
inductive Fault where
  /-- Raised by the host's read functions (Machine/Pipeline.lean) when the output read is ⊥ (R11, R196, U3). Safe: the
  spec itself calls this read a fault. -/
  | bottomRead (signal : OutSignal)
deriving DecidableEq, Repr

/-- Refusals. -/
inductive Refusal where
  /-- Raised by an arm of exec whose instruction has no meaning yet: none is left. Safe. -/
  | notModelled (mnemonic : String)
  /-- Raised by a step on an edge that two or more agents drive (R198, U8: a model refuses). Safe. -/
  | multipleDrivers
  /-- Raised by the host's label function on the type class 0b11, which the block never drives (R153, U4). Safe. -/
  | reservedTypeClass
deriving DecidableEq, Repr

/-- The outcome of a step, an operation or a host action. -/
abbrev Result (α : Type) := Host.Outcome α Fault Refusal

end Sys2Proof.Machine
end

