-- ==== Sys2Proof/Machine/Operands.lean ====
section
/-! DEFINITION. Operands and byte order: the one operand of an input vector (spec/30_encoding.md R62, in Decode.lean),
the fields of a completed frame (R63, R64), the slices of R9, and the packing of the frame on the output bus
(spec/20_memory.md R43, R45). -/

namespace Sys2Proof.Machine

/-- `zext_16` (R8). -/
def zext16 (b : Byte) : Crc := b.setWidth 16

/-- `{hi, lo}`: the big-endian 16-bit value `(zext_16(hi) << 8) | zext_16(lo)` (R43, R64). -/
def bigEndian16 (hi lo : Byte) : Crc := (zext16 hi <<< 8) ||| zext16 lo

/-- The high byte `v[15:8]` (R70, R87). -/
def highByte (v : Crc) : Byte := v.extractLsb' 8 8

/-- The low byte `v[7:0]` (R70, R87). -/
def lowByte (v : Crc) : Byte := v.extractLsb' 0 8

/-- The bytes of some cells, when every one of them holds a byte; ⊥ in any of them makes the whole ⊥ (R11). -/
def allBytes : List (Option Byte) → Option (List Byte)
  | [] => some []
  | none :: _ => none
  | some b :: cs => (allBytes cs).map (b :: ·)

/-- The slice `s[a..b]`, both ends included (R9). -/
def slice {α : Type} (l : List α) (a b : Nat) : List α := (l.drop a).take (b + 1 - a)

/-! ### The fields of a frame (R64) -/

/-- `type = f[1]`. -/
def frameType (f : Cells) : Option Byte := f[Config.typeOffset]

/-- `dispId = f[2]`. -/
def frameDispId (f : Cells) : Option Byte := f[Config.dispIdOffset]

/-- `query = f[3]`. -/
def frameQuery (f : Cells) : Option Byte := f[Config.queryOffset]

/-- `data = f[4]`. -/
def frameData (f : Cells) : Option Byte := f[Config.dataOffset]

/-- `crcAsserted = {f[5], f[6]}`. -/
def frameCrcAsserted (f : Cells) : Option Crc :=
  match f[Config.crcHiOffset], f[Config.crcLoOffset] with
  | some hi, some lo => some (bigEndian16 hi lo)
  | _, _ => none

/-- `crcScope = f[1..4]`, exactly 4 bytes. -/
def frameCrcScope (f : Cells) : Option (List Byte) :=
  allBytes (slice f.toList Config.crcFirst Config.crcLast)

/-! ### The output bus (R45) -/

/-- Bytes put together with the first one in the top bits: `{b0, b1, …}`. -/
def packBytes (bs : List Byte) : BitVec 64 :=
  bs.foldl (fun acc b => (acc <<< 8) ||| b.setWidth 64) 0

/-- `out_frame` as the 64-bit bus: frame offset `i` in bits 63-8i down to 56-8i. -/
def frameBus (f : Cells) : Option (BitVec 64) := (allBytes f.toList).map packBytes

/-- The byte of frame offset `i` on the bus. -/
def busByte (bus : BitVec 64) (i : Fin 8) : Byte := bus.extractLsb' (56 - 8 * i.val) 8

/-- The bytes of the bus in frame order. -/
def busBytes (bus : BitVec 64) : List Byte := (List.finRange 8).map (busByte bus)

end Sys2Proof.Machine
end

