-- ==== Sys2Proof/Machine/Crc.lean ====
section
/-! DEFINITION. The CRC generator of spec/40_crc.md: CRC-16/CCITT-FALSE, most significant bit first, no reflection, no
final XOR (R80). Pure functions: the block has no CRC register (R85). -/

namespace Sys2Proof.Machine

/-- One bit step of the register (R81). -/
def crcBit (r : Crc) : Crc :=
  if r.getLsbD 15 then (r <<< 1) ^^^ Config.crcPoly else r <<< 1

/-- `n` bit steps (R82: "repeat 8 times"). -/
def crcBits : Nat → Crc → Crc
  | 0, r => r
  | n + 1, r => crcBits n (crcBit r)

/-- One byte into the register: XOR it into the high byte, then eight bit steps (R82). -/
def crcByte (r : Crc) (b : Byte) : Crc := crcBits 8 (r ^^^ (zext16 b <<< 8))

/-- Bytes into a register, in order: `fold crc_byte r bs` (R83, R86). -/
def crcFold (r : Crc) : List Byte → Crc
  | [] => r
  | b :: bs => crcFold (crcByte r b) bs

/-- The CRC of a byte sequence, from the initial value and with nothing done to the result (R83). -/
def crc16 (bs : List Byte) : Crc := crcFold Config.crcInit bs

end Sys2Proof.Machine
end

