-- ==== Sys2Proof/Machine/Flags.lean ====
section
/-! DEFINITION. The status outputs of spec/10_state.md R27. The block has no flag register: `res_code` and `out_valid` are
registers of State; `in_ready`, `out_crc_valid` and `out_type_class` are computed here. -/

namespace Sys2Proof.Machine

/-- The code of `res_code` (R65). -/
def ResCode.code : ResCode → BitVec 2
  | .none => 0b00#2
  | .incomplete => 0b01#2
  | .complete => 0b10#2
  | .discarded => 0b11#2

/-- `in_ready = NOT out_valid`, from the register alone (R100, R195). -/
def inReady (s : State) : Bool := !s.outValid

/-- The byte a vector makes the block accept, if any: `rst = 0`, `in_valid = 1` and `in_ready = 1` (R101). -/
def acceptedByte (v : InputVector) (s : State) : Option Byte :=
  if !InputVector.rst v && InputVector.inValid v && inReady s then some (InputVector.inData v) else none

/-- Whether a vector makes the host take the pending reading: `out_ready = 1` while `out_valid = 1`, and no reset (R137,
R174). -/
def takesReading (v : InputVector) (s : State) : Bool :=
  !InputVector.rst v && InputVector.outReady v && s.outValid

/-- The sensor-type class of a type code (R66, R135). -/
def typeClass (t : Byte) : BitVec 2 :=
  if t = Config.typeTemperature then 0b01#2
  else if t = Config.typeHumidity then 0b10#2
  else 0b00#2

/-- Whether the asserted CRC equals the computed one (R134). -/
def crcMatches (asserted computed : Crc) : Bool := asserted == computed

end Sys2Proof.Machine
end

