-- ==== Sys2Proof/Machine/Ops.lean ====
section
/-! DEFINITION. The named operations over the registers and the buffer that the five meanings share. The block has no
exception, so there is no operation that takes one and none that returns from one (spec/60_exceptions.md R170, R175). -/

namespace Sys2Proof.Machine

/-! ### Register writes (R10) -/

/-- `buf[i]`, the spec's `MemRead(i, 1)` (R10). -/
def memRead (i : Fin 8) (s : State) : Option Byte := s.buf[i]

/-- `buf[i] <- b`, the spec's `MemWrite(i, 1, b)` (R10, R41). -/
def memWrite (cells : Cells) (i : Fin 8) (b : Byte) : Cells := cells.set i (some b)

/-- `res_code <- r`. -/
def State.setRes (s : State) (r : ResCode) : State := { s with resCode := r }

/-- `len <- n; buf <- c`. -/
def State.setAttempt (s : State) (n : Fin 8) (c : Cells) : State := { s with len := n, buf := c }

/-- `out_frame <- f; out_valid <- 1` (R111, R49: all 8 bytes at the same edge). -/
def State.setPending (s : State) (f : Cells) : State := { s with outValid := true, outFrame := f }

/-- `out_valid <- 0; out_frame <- ⊥` (R137). -/
def State.clearPending (s : State) : State := { s with outValid := false, outFrame := bottomCells }

/-! ### The transaction function (R102) -/

/-- First byte of an attempt (`len = 0`): rejected unless it is the sentinel (R103), which is stored and starts the
attempt (R104). -/
def startAttempt (buf : Cells) (b : Byte) : Assembly :=
  if b = Config.sentinel then
    { len := 1, buf := memWrite buf Config.startOffset b, res := .incomplete, frame := none }
  else
    { len := 0, buf := buf, res := .discarded, frame := none }

/-- Eighth byte of an attempt (`len = 7`): a complete frame if it is the sentinel (R106), else the attempt is lost (R107).
In both cases the buffer becomes empty. -/
def closeAttempt (buf : Cells) (b : Byte) : Assembly :=
  if b = Config.sentinel then
    { len := 0, buf := bottomCells, res := .complete, frame := some (memWrite buf Config.endOffset b) }
  else
    { len := 0, buf := bottomCells, res := .discarded, frame := none }

/-- One accepted byte (R102). The increment is computed without a width, so that the count 8 can be compared (R89); a byte
in the middle is appended unexamined (R105, R108). -/
def assemble (len : Fin 8) (buf : Cells) (b : Byte) : Assembly :=
  if len = 0 then startAttempt buf b
  else if h : len.val + 1 < Config.frameLen then
    { len := ⟨len.val + 1, h⟩, buf := memWrite buf len b, res := .incomplete, frame := none }
  else closeAttempt buf b

/-! ### What the operations of a step are made of -/

/-- A step that accepts no byte: `res_code <- NONE` (R25, R112). -/
def noByte (s : State) : State := s.setRes .none

/-- An accepted byte: the transaction's results go to the registers, and a completed frame becomes the pending reading,
whatever its CRC (R111, R139). -/
def acceptByte (b : Byte) (s : State) : State :=
  let a := assemble s.len s.buf b
  let s' := (s.setAttempt a.len a.buf).setRes a.res
  match a.frame with
  | some f => s'.setPending f
  | none => s'

/-- A byte offered: accepted when `in_ready = 1`, else not looked at (R101, R111). -/
def offerByte (b : Byte) (s : State) : State :=
  if inReady s then acceptByte b s else noByte s

/-- A take offered: it consumes the pending reading, if there is one (R137). -/
def takeReading (s : State) : State :=
  if s.outValid then noByte s.clearPending else noByte s

/-- All registers to their reset values (R32, R190). -/
def resetRegisters (s : State) : State :=
  ((s.setAttempt 0 bottomCells).clearPending).setRes .none

/-! ### The inputs of a step -/

/-- What is driven at the next rising edge, if there is one. -/
def nextEdge (s : State) : Option Edge := s.inputs.head?

/-- The edge has been sampled: it is no longer to come. -/
def dropEdge (s : State) : State := { s with inputs := s.inputs.tail }

/-- The host drives one more vector, before everything queued. -/
def pushVector (v : InputVector) (s : State) : State := { s with inputs := .vector v :: s.inputs }

end Sys2Proof.Machine
end

