-- ==== Sys2Proof/Machine/Channel.lean ====
section
/-! DEFINITION. The output channel's operation TAKE (spec/42_decode.md R137) and RESET (spec/70_reset_and_hazards.md
R190). -/

namespace Sys2Proof.Machine

/-- `TAKE`: the pending reading, if any, leaves the block; `len` and `buf` stay (R137). -/
def execTake (s : State) : Result State := .next (takeReading s)

/-- `RESET`: every register takes its reset value; no byte is accepted and no take happens (R190). -/
def execReset (s : State) : Result State := .next (resetRegisters s)

end Sys2Proof.Machine
end

