-- ==== Sys2Proof/Machine/Sync.lean ====
section
/-! DEFINITION. The step-level operations of the frame synchronizer: FEED, IDLE, FEED_TAKE
(spec/41_frame_sync.md R111 to R113). -/

namespace Sys2Proof.Machine

/-- `IDLE`: only `res_code` changes, to NONE (R112). -/
def execIdle (s : State) : Result State := .next (noByte s)

/-- `FEED b`: the byte is accepted if nothing is pending, else it is not consumed (R111). -/
def execFeed (b : Byte) (s : State) : Result State := .next (offerByte b s)

/-- `FEED_TAKE b`: a take while a reading is pending, else a feed (R113, R174). -/
def execFeedTake (b : Byte) (s : State) : Result State :=
  .next (if s.outValid then takeReading s else offerByte b s)

end Sys2Proof.Machine
end

