-- ==== Sys2Proof/Machine/Dispatch.lean ====
section
/-! DEFINITION. One arm per row of spec/opcode_table.json. -/

namespace Sys2Proof.Machine

def exec (i : Instr) (s : State) : Host.Outcome State Fault Refusal :=
  match i with
  | .reset => Sys2Proof.Machine.execReset s
  | .idle => Sys2Proof.Machine.execIdle s
  | .take => Sys2Proof.Machine.execTake s
  | .feed b => Sys2Proof.Machine.execFeed b s
  | .feedTake b => Sys2Proof.Machine.execFeedTake b s

end Sys2Proof.Machine
end

