-- ==== Sys2Proof/Machine/Step.lean ====
section
/-! DEFINITION. One step: one rising edge of `clk` with the vector sampled at it (spec/00_scope.md R12). -/

namespace Sys2Proof.Machine

/-- One step. With no edge to come all state keeps its value (R181); an edge with one driver runs the operation of its
vector (R61); an edge with several drivers is refused (R198). -/
def step (s : State) : Host.Outcome State Fault Refusal :=
  match nextEdge s with
  | none => .next s
  | some (.vector v) => exec (decode v) (dropEdge s)
  | some .contended => .refused .multipleDrivers

/-- The host drives the vector `w` (its low `nbits` bits) at the very next edge (log entry 5). -/
def State.withFetchWord (s : State) (nbits w : Nat) : State :=
  pushVector (BitVec.ofNat 11 (w % 2 ^ nbits)) s

end Sys2Proof.Machine
end

