-- ==== Sys2Proof/Machine/Decoder.lean ====
section
/-! DEFINITION. The decoder's outputs (spec/42_decode.md R130 to R136): combinational functions of the held frame, ⊥
(`none`) while `out_valid = 0` (R24, R130, R196). -/

namespace Sys2Proof.Machine

/-- An output that is architectural only while a reading is pending (R130). -/
def whileValid {α : Type} (s : State) (v : Option α) : Option α := if s.outValid then v else none

/-- `out_frame`, 64 bits (R45). -/
def outFrameBus (s : State) : Option (BitVec 64) := whileValid s (frameBus s.outFrame)

/-- `out_type` (R131). -/
def outType (s : State) : Option Byte := whileValid s (frameType s.outFrame)

/-- `out_dispid` (R131). -/
def outDispid (s : State) : Option Byte := whileValid s (frameDispId s.outFrame)

/-- `out_query` (R131). -/
def outQuery (s : State) : Option Byte := whileValid s (frameQuery s.outFrame)

/-- `out_data` (R131). -/
def outData (s : State) : Option Byte := whileValid s (frameData s.outFrame)

/-- `out_crc_asserted` (R132). -/
def outCrcAsserted (s : State) : Option Crc := whileValid s (frameCrcAsserted s.outFrame)

/-- `out_crc_computed`: the CRC over offsets 1 to 4 only (R133). -/
def outCrcComputed (s : State) : Option Crc := whileValid s ((frameCrcScope s.outFrame).map crc16)

/-- `out_crc_valid` (R134). -/
def outCrcValid (s : State) : Option Bool :=
  match outCrcAsserted s, outCrcComputed s with
  | some a, some c => some (crcMatches a c)
  | _, _ => none

/-- `out_type_class` (R135). -/
def outTypeClass (s : State) : Option (BitVec 2) := (outType s).map typeClass

end Sys2Proof.Machine
end

