-- ==== Sys2Proof/Machine/Pipeline.lean ====
section
/-! DEFINITION. The host side of the block's boundary (spec/43_host.md): reading the outputs, the label and the rendered
frame, the lookup-or-create-and-record sequence over the persistence collaborator's answers, and the observability event.
Nothing here is state of the block or changes its behaviour. -/

namespace Sys2Proof.Machine

/-- What follows an outcome that is a next value; a fault or a refusal ends the host's action. -/
def andThen {α β : Type} (o : Result α) (f : α → Result β) : Result β :=
  match o with
  | .next a => f a
  | .fault e => .fault e
  | .refused r => .refused r

/-! ### Reading the outputs -/

/-- The host reads one output: a read of ⊥ is a fault (R11, R196). -/
def hostRead {α : Type} (signal : OutSignal) (v : Option α) : Result α :=
  match v with
  | some a => .next a
  | none => .fault (.bottomRead signal)

/-- The three labels of the source (R153). -/
inductive TypeLabel where
  | temperature
  | humidity
  | unknown
deriving DecidableEq, Repr

/-- The label's string (R153). -/
def TypeLabel.text : TypeLabel → String
  | .temperature => "temperature"
  | .humidity => "humidity"
  | .unknown => "unknown"

/-- `label(c)`: the class code's label; 0b11 is refused (R153). -/
def label (c : BitVec 2) : Result TypeLabel :=
  if c = 0b01#2 then .next .temperature
  else if c = 0b10#2 then .next .humidity
  else if c = 0b00#2 then .next .unknown
  else .refused .reservedTypeClass

/-- One uppercase hexadecimal digit: `0`–`9`, then `A`–`F` (R154). -/
def hexDigit (n : BitVec 4) : Char :=
  if n.toNat < 10 then Char.ofNat (48 + n.toNat) else Char.ofNat (55 + n.toNat)

/-- A byte as exactly two digits, the high one first (R154). -/
def hexByte (b : Byte) : List Char := [hexDigit (b.extractLsb' 4 4), hexDigit (b.extractLsb' 0 4)]

/-- Bytes in order, one ASCII space between consecutive ones, none before or after (R154). -/
def renderChars : List Byte → List Char
  | [] => []
  | [b] => hexByte b
  | b :: c :: bs => hexByte b ++ ' ' :: renderChars (c :: bs)

/-- `render(f)`, the source's `rawFrame` (R154). -/
def render (bs : List Byte) : String := String.ofList (renderChars bs)

/-- The source's `DecodedReading` (R138). -/
structure DecodedReading where
  dispId : Byte
  type : Byte
  typeLabel : TypeLabel
  query : Byte
  data : Byte
  crcValid : Bool
  rawFrame : String
deriving DecidableEq, Repr

/-- The host samples the pending reading (R138, R151). -/
def sampleReading (s : State) : Result DecodedReading :=
  andThen (hostRead .outDispid (outDispid s)) fun dispId =>
  andThen (hostRead .outType (outType s)) fun type =>
  andThen (hostRead .outTypeClass (outTypeClass s)) fun cls =>
  andThen (label cls) fun typeLabel =>
  andThen (hostRead .outQuery (outQuery s)) fun query =>
  andThen (hostRead .outData (outData s)) fun data =>
  andThen (hostRead .outCrcValid (outCrcValid s)) fun crcValid =>
  andThen (hostRead .outFrame (outFrameBus s)) fun bus =>
  .next { dispId, type, typeLabel, query, data, crcValid, rawFrame := render (busBytes bus) }

/-! ### Persistence and observability -/

/-- What the spec leaves to the host's collaborators, as arguments (R7, U5, U6): the description of a type label, and the
persistence collaborator's three answers. `Store` is whatever the collaborator remembers; each call may change it, and each
may fail (R156). `eventAfterFailure` says whether the event of R155 is still emitted when a persistence call failed: the
spec does not settle it (log entry 10). This is an argument of the host functions, never part of State. -/
structure HostEnv (Store SensorId Err : Type) where
  describeType : TypeLabel → String
  findSensorByDeviceId : Byte → Store → Except Err (Option SensorId) × Store
  createSensor : Byte → Byte → String → Store → Except Err SensorId × Store
  recordReading : SensorId → Byte → Byte → Bool → String → Store → Except Err Unit × Store
  eventAfterFailure : Bool

/-- What the host does, in order: the persistence calls with their arguments (R152), the event with its fields (R155), the
report of a failure to its own caller (R156), the take (R151). -/
inductive HostAction (SensorId Err : Type) where
  | find (dispId : Byte)
  | create (dispId type : Byte) (description : String)
  | record (sensor : SensorId) (query data : Byte) (crcValid : Bool) (rawFrame : String)
  | event (deviceId : Byte) (typeLabel : TypeLabel) (data : Byte) (crcValid : Bool)
  | reportFailure (e : Err)
  | take
deriving DecidableEq, Repr

/-- What the persistence calls of one reading did: the calls made, the first failure (it ends the reading's processing,
R156), and the store after them. -/
structure Persisted (Store SensorId Err : Type) where
  actions : List (HostAction SensorId Err)
  failure : Option Err
  store : Store
deriving DecidableEq, Repr

section
variable {Store SensorId Err : Type}

/-- `recordReading(s, out_query, out_data, out_crc_valid, render(out_frame))` (R152), after the calls already made. -/
def recordStep (env : HostEnv Store SensorId Err) (r : DecodedReading) (sensor : SensorId)
    (before : List (HostAction SensorId Err)) (store : Store) : Persisted Store SensorId Err :=
  let actions := before ++ [.record sensor r.query r.data r.crcValid r.rawFrame]
  match env.recordReading sensor r.query r.data r.crcValid r.rawFrame store with
  | (.ok (), store') => { actions, failure := none, store := store' }
  | (.error e, store') => { actions, failure := some e, store := store' }

/-- Lookup-or-create and record (R152). -/
def persist (env : HostEnv Store SensorId Err) (r : DecodedReading) (store : Store) :
    Persisted Store SensorId Err :=
  let found := [HostAction.find r.dispId]
  match env.findSensorByDeviceId r.dispId store with
  | (.error e, store') => { actions := found, failure := some e, store := store' }
  | (.ok (some sensor), store') => recordStep env r sensor found store'
  | (.ok none, store') =>
    let created := found ++ [.create r.dispId r.type (env.describeType r.typeLabel)]
    match env.createSensor r.dispId r.type (env.describeType r.typeLabel) store' with
    | (.error e, store'') => { actions := created, failure := some e, store := store'' }
    | (.ok sensor, store'') => recordStep env r sensor created store''

/-- The event's fields (R155). -/
def readingEvent (r : DecodedReading) : HostAction SensorId Err :=
  .event r.dispId r.typeLabel r.data r.crcValid

/-- What the host does after the persistence calls and before the take: the event (R155), and on a failure the report to
its own caller (R156); whether the event is still emitted then is the environment's (log entry 10). -/
def afterPersistence (env : HostEnv Store SensorId Err) (r : DecodedReading) (failure : Option Err) :
    List (HostAction SensorId Err) :=
  match failure with
  | none => [readingEvent r]
  | some e => if env.eventAfterFailure then [readingEvent r, .reportFailure e] else [.reportFailure e]

/-- A persistence collaborator that remembers the sensors it created and does not fail: `known` says which sensor a store
holds for a device id (R158, U6). Lookups answer `known`; a create makes its sensor known; no call forgets another
device. -/
structure HostEnv.Remembers (env : HostEnv Store SensorId Err) (known : Store → Byte → Option SensorId) : Prop where
  find : ∀ d st, (env.findSensorByDeviceId d st).1 = .ok (known st d)
  find_keeps : ∀ d st, known (env.findSensorByDeviceId d st).2 = known st
  create : ∀ d t txt st, ∃ sensor, (env.createSensor d t txt st).1 = .ok sensor ∧
    known (env.createSensor d t txt st).2 d = some sensor
  create_keeps : ∀ d t txt st d', d' ≠ d → known (env.createSensor d t txt st).2 d' = known st d'
  record : ∀ x q v c w st, (env.recordReading x q v c w st).1 = .ok ()
  record_keeps : ∀ x q v c w st, known (env.recordReading x q v c w st).2 = known st

end

end Sys2Proof.Machine
end

