-- ==== Sys2Proof/Machine/Ingest.lean ====
section
/-! DEFINITION. Block and host together (spec/43_host.md R150, R151, R156, R161): one cycle of both, with every choice the
rules leave to the host and the transport; then one byte, and a stream, driven through them. Nothing here is state of the
block or changes its behaviour. -/

namespace Sys2Proof.Machine

section
variable {Store SensorId Err : Type}

/-- One instance of the block with its host: the block's state, the persistence store, what the host has done, oldest
first, and whether the host has already processed the reading now pending (it processes each once, R151). -/
structure System (Store SensorId Err : Type) where
  block : State
  store : Store
  log : List (HostAction SensorId Err)
  processed : Bool
deriving DecidableEq, Repr

/-- What the host does about the pending reading before it takes it: it samples the outputs (R138), then the persistence
calls (R152), the event (R155), and on a failure the report (R156). -/
def processReading (env : HostEnv Store SensorId Err) (y : System Store SensorId Err) :
    Result (System Store SensorId Err) :=
  andThen (sampleReading y.block) fun r =>
  let p := persist env r y.store
  .next { y with store := p.store, log := y.log ++ p.actions ++ afterPersistence env r p.failure, processed := true }

/-! ### One cycle -/

/-- The choices of one cycle: the vector that is driven (so whether a byte is offered, which one, whether `out_ready` or
`rst` is asserted), and whether the host processes the pending reading in this cycle already (it may wait, R161). -/
structure HostCycle where
  vector : InputVector
  processNow : Bool
deriving DecidableEq, Repr

/-- Whether the pending reading is processed in a cycle: once, on `out_valid = 1` only (R157), and at the latest in the
cycle whose edge takes it (R151, R196). -/
def processesIn (c : HostCycle) (y : System Store SensorId Err) : Bool :=
  y.block.outValid && !y.processed && (c.processNow || takesReading c.vector y.block)

/-- One cycle of block and host: the processing, if it is due, on the outputs before the edge; then the edge. A take is a
take whether the vector is TAKE or FEED_TAKE. The block goes on whatever the persistence calls answered (R156). -/
def hostCycle (env : HostEnv Store SensorId Err) (c : HostCycle) (y : System Store SensorId Err) :
    Result (System Store SensorId Err) :=
  andThen (if processesIn c y then processReading env y else .next y) fun y₁ =>
  andThen (exec (decode c.vector) y.block) fun block =>
  .next { block
          store := y₁.store
          log := y₁.log ++ (if takesReading c.vector y.block then [.take] else [])
          processed := y₁.processed && y.block.outValid && block.outValid }

/-- Cycles one after another. -/
def hostRun (env : HostEnv Store SensorId Err) :
    List HostCycle → System Store SensorId Err → Result (System Store SensorId Err)
  | [], y => .next y
  | c :: cs, y => andThen (hostCycle env c y) (hostRun env cs)

/-! ### A reading served -/

/-- The vector of a cycle without reset: the byte the transport offers, if any, and the host's `out_ready`. -/
def driveVector (offered : Option Byte) (ready : Bool) : InputVector :=
  packVector false offered.isSome ready (offered.getD 0)

/-- How a processed reading is taken. `delay`: what the transport offers in the cycles before the take, `out_ready = 0`
(R161: the take may be delayed, which stalls the input). `atTake`: what it offers at the take, which is FEED_TAKE when it
holds a byte (R150) and TAKE when it offers none (R151). `after`: the values of `out_ready` in further cycles without a byte
offered (R151: "for at least one step"); a byte offered while `out_ready` stays asserted is the next one of `BytePlan`. -/
structure TakePlan where
  delay : List (Option Byte)
  atTake : Option Byte
  after : List Bool
deriving DecidableEq, Repr

/-- The cycles of a plan: the reading is processed in the first one. -/
def TakePlan.cycles (p : TakePlan) : List HostCycle :=
  p.delay.map (fun offered => { vector := driveVector offered false, processNow := true }) ++
    { vector := driveVector p.atTake true, processNow := true } ::
    p.after.map (fun ready => { vector := driveVector none ready, processNow := false })

/-- The host processes the pending reading, if there is one, and takes it by the plan whatever the persistence outcome
(R151, R156). Without a pending reading it does nothing (R157). -/
def serveReading (env : HostEnv Store SensorId Err) (p : TakePlan) (y : System Store SensorId Err) :
    Result (System Store SensorId Err) :=
  if y.block.outValid then hostRun env p.cycles y else .next y

/-! ### A byte, and a stream -/

/-- The choices around one byte: how a reading still pending when it comes is taken, whether `out_ready` is asserted at
the edge that accepts the byte (FEED_TAKE) or not (FEED), and how a reading it completes is taken. -/
structure BytePlan where
  pending : TakePlan
  ready : Bool
  completed : TakePlan
deriving DecidableEq, Repr

/-- `onByte(b)`, the source's entry point: a byte is offered until it is accepted, so a reading still pending is served
first (R100, R150); then the byte is accepted and a reading it completes is served (R151). -/
def onByte (env : HostEnv Store SensorId Err) (p : BytePlan) (b : Byte) (y : System Store SensorId Err) :
    Result (System Store SensorId Err) :=
  andThen (serveReading env p.pending y) fun y₁ =>
  andThen (hostCycle env { vector := driveVector (some b) p.ready, processNow := false } y₁)
    (serveReading env p.completed)

/-- A sequence of bytes, one `onByte` each, in order (R150), each with its own choices. -/
def onBytes (env : HostEnv Store SensorId Err) :
    List (BytePlan × Byte) → System Store SensorId Err → Result (System Store SensorId Err)
  | [], y => .next y
  | (p, b) :: bs, y => andThen (onByte env p b y) (onBytes env bs)

end

end Sys2Proof.Machine
end

