-- ==== Sys2Proof/Machine/Stream.lean ====
section
/-! DEFINITION. Streams of accepted bytes at the transaction level, and runs of input vectors
(spec/41_frame_sync.md R115 to R119, spec/00_scope.md R12). -/

namespace Sys2Proof.Machine

/-- The synchronizer after a stream of accepted bytes: `len` and `buf` (R102). -/
def streamEnd (len : Fin 8) (buf : Cells) : List Byte → Fin 8 × Cells
  | [] => (len, buf)
  | b :: bs => streamEnd (assemble len buf b).len (assemble len buf b).buf bs

/-- The result of each byte of a stream of accepted bytes, in order (R102, R119). -/
def streamResults (len : Fin 8) (buf : Cells) : List Byte → List ResCode
  | [] => []
  | b :: bs => (assemble len buf b).res :: streamResults (assemble len buf b).len (assemble len buf b).buf bs

/-- The frames completed by a stream of accepted bytes, in order (R53, R102). -/
def streamFrames (len : Fin 8) (buf : Cells) : List Byte → List Cells
  | [] => []
  | b :: bs =>
    (assemble len buf b).frame.toList ++ streamFrames (assemble len buf b).len (assemble len buf b).buf bs

/-- The cells that hold exactly the bytes of a list, from cell 0 on, and ⊥ above them (R22). -/
def cellsOf (bs : List Byte) : Cells := Vector.ofFn fun i => bs[i.val]?

/-- A run of input vectors: the bytes the block accepts, in order (R101). -/
def runAccepted : List InputVector → State → List Byte
  | [], _ => []
  | v :: vs, s =>
    match exec (decode v) s with
    | .next t => (acceptedByte v s).toList ++ runAccepted vs t
    | .fault _ => []
    | .refused _ => []

/-- A run of input vectors: the values `res_code` and `out_frame` show after each step, in order (R197: a host that counts
results samples every cycle). -/
def runShown : List InputVector → State → List (ResCode × Cells)
  | [], _ => []
  | v :: vs, s =>
    match exec (decode v) s with
    | .next t => (t.resCode, t.outFrame) :: runShown vs t
    | .fault _ => []
    | .refused _ => []

/-- A run of input vectors: the state at its end. -/
def runEnd : List InputVector → State → Result State
  | [], s => .next s
  | v :: vs, s =>
    match exec (decode v) s with
    | .next t => runEnd vs t
    | .fault e => .fault e
    | .refused r => .refused r

/-- A transport that holds a byte until it is accepted (R150), at one step: `offers` is its choice to offer now, `ready`
the host's choice of `out_ready`. With nothing left it offers nothing. -/
def holdingVector (offers ready : Bool) : List Byte → InputVector
  | [] => packVector false false ready 0
  | b :: _ => packVector false offers ready b

/-- A run against such a transport: the vectors driven, and the bytes still held at the end. A byte leaves the transport
exactly at a step where the block accepts it (R150). -/
def holdingRun : List (Bool × Bool) → List Byte → State → List InputVector × List Byte
  | [], bs, _ => ([], bs)
  | (offers, ready) :: cs, bs, s =>
    let v := holdingVector offers ready bs
    match exec (decode v) s with
    | .next t =>
      let r := holdingRun cs (if (acceptedByte v s).isSome then bs.tail else bs) t
      (v :: r.1, r.2)
    | .fault _ => ([], bs)
    | .refused _ => ([], bs)

end Sys2Proof.Machine
end

