-- ==== Sys2Proof/Machine/Source.lean ====
section
/-! DEFINITION. The source's own functions, written from the sentences the spec quotes: `feedByte` over a growing buffer
(spec/41_frame_sync.md R102 to R107, "instance-level growing list" of R22) and `decode` of a completed frame
(spec/42_decode.md, the source's steps 1 to 6). They are what the block must reproduce exactly (spec/00_scope.md R3). -/

namespace Sys2Proof.Machine

/-- The source's `FrameResult` (R25, R102). -/
inductive FrameResult where
  | incomplete
  | complete (bytes : List Byte)
  | discarded
deriving DecidableEq, Repr

/-- The source's `feedByte(b)` on its buffer: the new buffer and the result (quotations in R103 to R107). -/
def feedByte (buffer : List Byte) (b : Byte) : List Byte × FrameResult :=
  match buffer with
  | [] => if b ≠ Config.sentinel then ([], .discarded) else ([b], .incomplete)
  | x :: xs =>
    let appended := (x :: xs) ++ [b]
    if appended.length < Config.frameLen then (appended, .incomplete)
    else if b = Config.sentinel then ([], .complete appended)
    else ([], .discarded)

/-- The results of a stream of bytes, in order. -/
def feedBytes (buffer : List Byte) : List Byte → List FrameResult
  | [] => []
  | b :: bs => (feedByte buffer b).2 :: feedBytes (feedByte buffer b).1 bs

/-- The source's label of a type code (its step 5, R135). -/
def sourceLabel (type : Byte) : TypeLabel :=
  if type = Config.typeTemperature then .temperature
  else if type = Config.typeHumidity then .humidity
  else .unknown

/-- The source's `decode` of the frame `[f0, type, dispId, query, data, crcHi, crcLo, f7]` (its steps 1 to 6). -/
def sourceDecode (f0 type dispId query data crcHi crcLo f7 : Byte) : DecodedReading :=
  { dispId
    type
    typeLabel := sourceLabel type
    query
    data
    crcValid := bigEndian16 crcHi crcLo == crc16 [type, dispId, query, data]
    rawFrame := render [f0, type, dispId, query, data, crcHi, crcLo, f7] }

/-- The block's registers stand for the source's buffer: `len` is its length, cell `i` its byte `i`, ⊥ above (R21, R22). -/
def Represents (s : State) (buffer : List Byte) : Prop :=
  s.len.val = buffer.length ∧ ∀ i : Fin 8, s.buf[i] = buffer[i.val]?

/-- What the registers show of the source's result after a step: nothing for NONE, and for COMPLETE the frame held in
`out_frame` (R25, R65). -/
def shownResult (shown : ResCode × Cells) : Option FrameResult :=
  match shown.1 with
  | .none => none
  | .incomplete => some .incomplete
  | .discarded => some .discarded
  | .complete => (allBytes shown.2.toList).map .complete

end Sys2Proof.Machine
end

