-- ==== Sys2Proof/Machine/TestProgram.lean ====
section
/-! DEFINITION. The spec's notation for step lists (spec/30_encoding.md R69) and its three pseudo-instructions, which
expand to steps before anything is evaluated (R70). -/

namespace Sys2Proof.Machine

/-- The frame with its CRC computed: `7E t d q v c[15:8] c[7:0] 7E` (R70 FRAME). -/
def frameBytes (t d q v : Byte) : List Byte :=
  let c := crc16 [t, d, q, v]
  [Config.sentinel, t, d, q, v, highByte c, lowByte c, Config.sentinel]

/-- The frame with explicit CRC bytes (R70 FRAMEC). -/
def framecBytes (t d q v h l : Byte) : List Byte :=
  [Config.sentinel, t, d, q, v, h, l, Config.sentinel]

/-- The steps one line stands for; `none` where the line is not well formed (R69, R70). -/
def expandLine (l : SourceLine) : Option (List Instr) :=
  if l.wf then
    match l.word, l.operands.map (BitVec.ofNat 8) with
    | .reset, _ => some [.reset]
    | .idle, _ => some [.idle]
    | .take, _ => some [.take]
    | .feed, bs => some (bs.map .feed)
    | .feedTake, bs => some (bs.map .feedTake)
    | .feeds, bs => some (bs.map .feed)
    | .frame, [t, d, q, v] => some ((frameBytes t d q v).map .feed)
    | .framec, [t, d, q, v, h, l] => some ((framecBytes t d q v h l).map .feed)
    | _, _ => none
  else none

/-- The steps of a list of lines, in order. -/
def expandLines : List SourceLine → Option (List Instr)
  | [] => some []
  | l :: ls =>
    match expandLine l, expandLines ls with
    | some is, some rest => some (is ++ rest)
    | _, _ => none

/-- The edges a list of operations drives, one per line (R69: each line is exactly one rising edge). -/
def drive (is : List Instr) : List Edge := is.map fun i => .vector (encode i)

end Sys2Proof.Machine
end

