-- ==== Sys2Proof/Safety.lean ====
section
/-! DEFINITION. The invariant of the block's registers, in the terms claims use: it holds after reset, and every step keeps
it. Each part is decidable, so a concrete state can be checked by decide. -/

namespace Sys2Proof.Machine

/-- Exactly the cells below `len` hold a byte (R22). -/
abbrev BufferFilled (s : State) : Prop := ∀ i : Fin 8, s.buf[i].isSome = decide (i < s.len)

/-- Whenever `len ≥ 1`, `buf[0] = 0x7E` (R23). -/
abbrev StartIsSentinel (s : State) : Prop := s.len ≠ 0 → s.buf[Config.startOffset] = some Config.sentinel

/-- The held frame has all 8 bytes while `out_valid = 1`, and every cell is ⊥ while it is 0 (R24, R49). -/
abbrev FrameHeld (s : State) : Prop := ∀ i : Fin 8, s.outFrame[i].isSome = s.outValid

/-- A held frame begins and ends with the sentinel (R115). -/
abbrev FrameDelimited (s : State) : Prop :=
  s.outValid = true → s.outFrame[Config.startOffset] = some Config.sentinel ∧
    s.outFrame[Config.endOffset] = some Config.sentinel

/-- While a reading is pending there is no partial attempt (R137). -/
abbrev NoAttemptWhilePending (s : State) : Prop := s.outValid = true → s.len = 0

/-- `res_code` agrees with what the byte it reports did: INCOMPLETE leaves an attempt open, COMPLETE a reading pending,
DISCARDED neither (R25, R65). -/
abbrev ResultAgrees (s : State) : Prop :=
  (s.resCode = .incomplete → s.len ≠ 0) ∧ (s.resCode = .complete → s.outValid = true) ∧
    (s.resCode = .discarded → s.len = 0 ∧ s.outValid = false)

/-- The invariant. -/
abbrev BlockInv (s : State) : Prop :=
  BufferFilled s ∧ StartIsSentinel s ∧ FrameHeld s ∧ FrameDelimited s ∧ NoAttemptWhilePending s ∧ ResultAgrees s

end Sys2Proof.Machine
end

