-- ==== Sys2Proof/Certificates/Slice0/Obligations.lean ====
section
/-! DEFINITION. The statements for the provers, in the order of the spec's files. -/

open Sys2Proof Sys2Proof.Machine

/-! ### Reset (spec/10_state.md R32, spec/70_reset_and_hazards.md R190 to R192) -/

/-- R190: RESET gives every register its reset value, in any state, and drives nothing else. -/
def Obligations.ResetGivesResetValues : Prop :=
  ∀ s : State, exec .reset s = .next
    { len := 0, buf := bottomCells, outValid := false, outFrame := bottomCells, resCode := .none, inputs := s.inputs }

/-- R32: after a step with `rst = 1`, whatever the state before and whatever the other bits, every register has its reset
value, `in_ready = 1`, and every output other than `out_valid` is ⊥. -/
def Obligations.StateAfterStepWithRst : Prop :=
  ∀ (s : State) (v : InputVector) (rest : List Edge), InputVector.rst v = true →
    ∃ t, step { s with inputs := .vector v :: rest } = .next t ∧
      t.len = 0 ∧ (∀ i, memRead i t = none) ∧ t.outValid = false ∧ (∀ i : Fin 8, t.outFrame[i] = none) ∧
      t.resCode = .none ∧ t.inputs = rest ∧ inReady t = true ∧
      outFrameBus t = none ∧ outType t = none ∧ outDispid t = none ∧ outQuery t = none ∧ outData t = none ∧
      outCrcAsserted t = none ∧ outCrcComputed t = none ∧ outCrcValid t = none ∧ outTypeClass t = none

/-- The model's start (log entry 1): the machine's reset state is what RESET leaves, whatever the state before, with the
model's own input list empty (log entry 3). -/
def Obligations.MachineStartsAfterReset : Prop :=
  ∀ s t : State, exec .reset s = .next t → { t with inputs := [] } = Sys2Proof.core.reset

/-- The invariant holds in the reset state, whatever the host is going to drive. -/
def Obligations.ResetStateMeetsInvariant : Prop :=
  ∀ es : List Edge, BlockInv { State.reset with inputs := es }

/-! ### Invariants (spec/10_state.md R21 to R25) -/

/-- Every step keeps the invariant, from every state that meets it. -/
def Obligations.EveryStepKeepsInvariant : Prop :=
  ∀ s t : State, BlockInv s → step s = .next t → BlockInv t

/-- R23 alone, with no help from the other parts: the sentinel stays in cell 0 as long as an attempt is open. -/
def Obligations.BufferStartStaysSentinel : Prop :=
  ∀ s t : State, StartIsSentinel s → step s = .next t → StartIsSentinel t

/-! ### Encodings (spec/30_encoding.md) -/

/-- R60: the places of the four fields, both ways. -/
def Obligations.VectorFieldsPackAndUnpack : Prop :=
  (∀ (r iv o : Bool) (b : Byte),
    (packVector r iv o b).toNat = r.toNat * 1024 + iv.toNat * 512 + o.toNat * 256 + b.toNat ∧
    InputVector.rst (packVector r iv o b) = r ∧ InputVector.inValid (packVector r iv o b) = iv ∧
    InputVector.outReady (packVector r iv o b) = o ∧ InputVector.inData (packVector r iv o b) = b) ∧
  (∀ v : InputVector, packVector (InputVector.rst v) (InputVector.inValid v) (InputVector.outReady v)
    (InputVector.inData v) = v)

/-- R61: a vector decodes to an operation exactly when it has the row's match under the row's mask and carries its
operand; so every one of the 2048 vectors is exactly one operation. -/
def Obligations.DecodeFollowsOpcodeTable : Prop :=
  ∀ (v : InputVector) (i : Instr), decode v = i ↔
    (v &&& i.opMask = i.opMatch ∧ ∀ b, i.operand = some b → InputVector.inData v = b)

/-- Decoding an encoded well-formed operation gives it back, from the vector and from the number that writes it. -/
def Obligations.DecodeOfEncodeIsIdentity : Prop :=
  ∀ i : Instr, i.wf = true → decode (encode i) = i ∧ decodeWord (encode i).toNat = .ok i ∧
    decodeTableWord 11 (encode i).toNat = some i ∧ decodeTableWord 16 (encode i).toNat = some i

/-- R69: the vector of each line of the notation. -/
def Obligations.NotationVectors : Prop :=
  encode .reset = 0x400#11 ∧ encode .idle = 0x000#11 ∧ encode .take = 0x100#11 ∧
    (∀ b : Byte, (encode (.feed b)).toNat = 0x200 + b.toNat) ∧
    (∀ b : Byte, (encode (.feedTake b)).toNat = 0x300 + b.toNat)

/-- Words written out from the spec's tables of vectors (spec/95_test_vectors.md 2.3) decode to the operations named there. -/
def Obligations.SpecWordsDecode : Prop :=
  decode 0x000#11 = .idle ∧ decode 0x100#11 = .take ∧ decode 0x27E#11 = .feed 0x7E#8 ∧
    decode 0x37E#11 = .feedTake 0x7E#8 ∧ decode 0x400#11 = .reset ∧ decode 0x67E#11 = .reset ∧
    decode 0x500#11 = .reset ∧ decode 0x7FF#11 = .reset ∧ decode 0x200#11 = .feed 0x00#8

/-- The model's choice (log entry 6): a number with a bit above bit 10 is no input vector, and is refused by name. -/
def Obligations.WideWordsAreRefused : Prop :=
  ∀ w : Nat, 2048 ≤ w → decodeWord w = .error .notAnInputVector

/-- R65: the four codes of `res_code`; an accepted byte produces one of the three other than NONE. -/
def Obligations.ResultCodes : Prop :=
  ResCode.none.code = 0b00#2 ∧ ResCode.incomplete.code = 0b01#2 ∧ ResCode.complete.code = 0b10#2 ∧
    ResCode.discarded.code = 0b11#2 ∧
    ∀ (len : Fin 8) (buf : Cells) (b : Byte), (assemble len buf b).res.code ≠ 0b00#2

/-! ### One step (spec/00_scope.md R12, spec/60_exceptions.md R170, R174, R181) -/

/-- A step runs the decoded operation (R12, R61) on the state whose queue has lost that edge, and so does a step on a
placed word. That the driven vectors stand in a queue in State is the model's choice (log entry 3), and so is where
`withFetchWord` places a word: in front of that queue (log entry 5). -/
def Obligations.StepRunsDecodedInstruction : Prop :=
  (∀ (s : State) (v : InputVector) (rest : List Edge), s.inputs = .vector v :: rest →
    step s = exec (decode v) { s with inputs := rest }) ∧
  (∀ (s : State) (nbits w : Nat) (i : Instr), decodeTableWord nbits w = some i →
    step (s.withFetchWord nbits w) = exec i s)

/-- R170: no vector and no byte makes the block stop; every step on a driven edge has a next state. -/
def Obligations.EveryVectorHasNextState : Prop :=
  ∀ (s : State) (v : InputVector) (rest : List Edge),
    ∃ t, step { s with inputs := .vector v :: rest } = .next t ∧ t.inputs = rest

/-- A step never faults, and is refused exactly on an edge with several drivers (R198; log entry 4). -/
def Obligations.StepStopsOnlyOnContention : Prop :=
  ∀ s : State, (∀ f, step s ≠ .fault f) ∧
    (∀ r, step s = .refused r ↔ (r = .multipleDrivers ∧ s.inputs.head? = some .contended))

/-- R181 in the model's form (log entry 3): with no edge to come all state keeps its value. -/
def Obligations.NoEdgeKeepsState : Prop :=
  ∀ s : State, s.inputs = [] → step s = .next s

/-! ### The synchronizer's transaction (spec/41_frame_sync.md R102 to R108) -/

/-- R103 and R104: a first byte other than the sentinel is discarded and writes nothing; the sentinel is stored in cell 0
and starts the attempt. -/
def Obligations.FirstByteOfAttempt : Prop :=
  ∀ (buf : Cells) (b : Byte),
    (b ≠ 0x7E#8 → assemble 0 buf b = { len := 0, buf := buf, res := .discarded, frame := none }) ∧
    (b = 0x7E#8 → ∃ a : Assembly, assemble 0 buf b = a ∧ a.len = 1 ∧ a.res = .incomplete ∧ a.frame = none ∧
      a.buf[(0 : Fin 8)] = some 0x7E#8 ∧ ∀ i : Fin 8, i ≠ 0 → a.buf[i] = buf[i])

/-- R105: with 1 to 6 bytes buffered any byte goes to cell `len`, and `len` grows by one. -/
def Obligations.InteriorByteAppended : Prop :=
  ∀ (len : Fin 8) (buf : Cells) (b : Byte), 1 ≤ len.val → len.val ≤ 6 →
    ∃ a : Assembly, assemble len buf b = a ∧ a.len.val = len.val + 1 ∧ a.res = .incomplete ∧ a.frame = none ∧
      a.buf[len] = some b ∧ ∀ i : Fin 8, i ≠ len → a.buf[i] = buf[i]

/-- R106 and R107: the eighth byte, if it is the sentinel, completes the frame `buf[0..6] ++ [b]`; any other eighth byte
discards the attempt; in both cases the buffer is empty afterwards. -/
def Obligations.EighthByteOfAttempt : Prop :=
  ∀ (buf : Cells) (b : Byte),
    (b = 0x7E#8 → ∃ f : Cells,
      assemble 7 buf b = { len := 0, buf := bottomCells, res := .complete, frame := some f } ∧
      (∀ i : Fin 8, i ≠ 7 → f[i] = buf[i]) ∧ f[(7 : Fin 8)] = some 0x7E#8) ∧
    (b ≠ 0x7E#8 → assemble 7 buf b = { len := 0, buf := bottomCells, res := .discarded, frame := none }) ∧
    (∀ i : Fin 8, bottomCells[i] = none)

/-! ### The five operations (R111 to R113, R137, R190) -/

/-- R111: the vectors that are FEED, and FEED's two branches, with every register it writes and every one it leaves. -/
def Obligations.FeedResult : Prop :=
  (∀ v : InputVector, InputVector.rst v = false → InputVector.inValid v = true → InputVector.outReady v = false →
    decode v = .feed (InputVector.inData v)) ∧
  ∀ (b : Byte) (s : State),
    (s.outValid = true → exec (.feed b) s = .next { s with resCode := .none }) ∧
    (s.outValid = false → ∃ t, exec (.feed b) s = .next t ∧
      t.len = (assemble s.len s.buf b).len ∧ t.buf = (assemble s.len s.buf b).buf ∧
      t.resCode = (assemble s.len s.buf b).res ∧ t.inputs = s.inputs ∧
      ((assemble s.len s.buf b).res = .complete →
        t.outValid = true ∧ (assemble s.len s.buf b).frame = some t.outFrame) ∧
      ((assemble s.len s.buf b).res ≠ .complete → t.outValid = false ∧ t.outFrame = s.outFrame))

/-- R112: the vectors that are IDLE; IDLE writes `res_code` and nothing else. -/
def Obligations.IdleResult : Prop :=
  (∀ v : InputVector, InputVector.rst v = false → InputVector.inValid v = false → InputVector.outReady v = false →
    decode v = .idle) ∧
  ∀ s : State, exec .idle s = .next { s with resCode := .none }

/-- R137: the vectors that are TAKE, TAKE's two branches, and FEED_TAKE while a reading is pending. -/
def Obligations.TakeResult : Prop :=
  (∀ v : InputVector, InputVector.rst v = false → InputVector.inValid v = false → InputVector.outReady v = true →
    decode v = .take) ∧
  ∀ s : State,
    (s.outValid = true →
      exec .take s = .next { s with outValid := false, outFrame := bottomCells, resCode := .none } ∧
      ∀ b, exec (.feedTake b) s = exec .take s) ∧
    (s.outValid = false → exec .take s = .next { s with resCode := .none } ∧ exec .take s = exec .idle s) ∧
    (BlockInv s → s.outValid = true → s.len = 0)

/-- R113: the vectors that are FEED_TAKE; it takes while a reading is pending, and else feeds. -/
def Obligations.FeedTakeResult : Prop :=
  (∀ v : InputVector, InputVector.rst v = false → InputVector.inValid v = true → InputVector.outReady v = true →
    decode v = .feedTake (InputVector.inData v)) ∧
  ∀ (b : Byte) (s : State),
    (s.outValid = true → ∃ t, exec (.feedTake b) s = .next t ∧ exec .take s = .next t ∧ t.outValid = false ∧
      t.resCode = .none ∧ t.len = s.len ∧ t.buf = s.buf) ∧
    (s.outValid = false → ∃ t, exec (.feedTake b) s = .next t ∧ exec (.feed b) s = .next t ∧
      t.resCode = (assemble s.len s.buf b).res)

/-- What FEED and FEED_TAKE leave unchanged. A byte that is stored goes to cell `len`, the write index R105 uses; every
other cell reads as before unless the byte closes the attempt, which empties the buffer. The held frame changes only when
the byte completes a frame or (FEED_TAKE) the reading is taken. -/
def Obligations.FeedAndFeedTakeFrame : Prop :=
  ∀ (i : Instr) (b : Byte) (s t : State), i = .feed b ∨ i = .feedTake b → exec i s = .next t →
    t.inputs = s.inputs ∧
    (s.outValid = true → t.len = s.len ∧ ∀ j, memRead j t = memRead j s) ∧
    (s.outValid = true → i = .feed b → t.outValid = true ∧ ∀ j : Fin 8, t.outFrame[j] = s.outFrame[j]) ∧
    (s.outValid = false → s.len ≠ 7 → (∀ j, j ≠ s.len → memRead j t = memRead j s) ∧
      t.outValid = false ∧ ∀ j : Fin 8, t.outFrame[j] = s.outFrame[j]) ∧
    (s.outValid = false → s.len = 0 → b ≠ 0x7E#8 → t.len = 0 ∧ ∀ j, memRead j t = memRead j s) ∧
    (s.outValid = false → s.len = 7 → t.len = 0 ∧ ∀ j, memRead j t = none) ∧
    (s.outValid = false → s.len = 7 → b ≠ 0x7E#8 → t.outValid = false ∧ ∀ j : Fin 8, t.outFrame[j] = s.outFrame[j])

/-! ### Handshake and results (R100, R101, R114, R119, R174, R195) -/

/-- R25: after a step `res_code` is NONE exactly when no byte was accepted at it, and else it is the accepted byte's
result. -/
def Obligations.ResultShownExactlyWhenAccepted : Prop :=
  ∀ (v : InputVector) (s t : State), exec (decode v) s = .next t →
    (t.resCode ≠ .none ↔ (acceptedByte v s).isSome = true) ∧
    (∀ b, acceptedByte v s = some b → t.resCode = (assemble s.len s.buf b).res)

/-- R101, last sentence: a step that does not accept a byte does not look at `in_data`. -/
def Obligations.UnacceptedDataIgnored : Prop :=
  ∀ (r iv o : Bool) (b b' : Byte) (s : State), acceptedByte (packVector r iv o b) s = none →
    exec (decode (packVector r iv o b)) s = exec (decode (packVector r iv o b')) s

/-- R114: no step that accepts no byte changes `len` or `buf`, however many follow one another. -/
def Obligations.NonAcceptingStepsKeepAttempt : Prop :=
  ∀ (vs : List InputVector) (s : State), (∀ v ∈ vs, InputVector.rst v = false) → runAccepted vs s = [] →
    ∃ t, runEnd vs s = .next t ∧ t.len = s.len ∧ t.buf = s.buf

/-- R174, point 2, and R195: a byte accept and a take never coincide; which one a vector gives is decided by `out_valid`;
after a take the block is ready, after a completion it is not; `in_ready` depends on no input. -/
def Obligations.AcceptAndTakeNeverCoincide : Prop :=
  ∀ (v : InputVector) (s t : State), exec (decode v) s = .next t →
    ((acceptedByte v s).isSome = true → takesReading v s = false ∧ s.outValid = false) ∧
    (takesReading v s = true → acceptedByte v s = none ∧ inReady t = true) ∧
    (t.resCode = .complete → inReady t = false) ∧
    (∀ es, inReady { s with inputs := es } = inReady s)

/-- R49: while a reading is pending, the held frame and every decoder output stay as they are until a take or a reset. -/
def Obligations.OutputsStableUntilTakeOrReset : Prop :=
  ∀ (v : InputVector) (s t : State), s.outValid = true → InputVector.rst v = false → takesReading v s = false →
    exec (decode v) s = .next t →
      t.outValid = true ∧ outFrameBus t = outFrameBus s ∧ outType t = outType s ∧ outDispid t = outDispid s ∧
      outQuery t = outQuery s ∧ outData t = outData s ∧ outCrcAsserted t = outCrcAsserted s ∧
      outCrcComputed t = outCrcComputed s ∧ outCrcValid t = outCrcValid s ∧ outTypeClass t = outTypeClass s

/-! ### Streams of accepted bytes (R110, R115 to R119) -/

/-- R115: COMPLETE is produced only with a frame whose offsets 0 and 7 are the sentinel; it guarantees nothing about the six
bytes between, since any six can stand there. -/
def Obligations.CompletedFramesAreDelimited : Prop :=
  (∀ (len : Fin 8) (buf : Cells) (bs : List Byte) (f : Cells),
    (len ≠ 0 → buf[(0 : Fin 8)] = some 0x7E#8) → f ∈ streamFrames len buf bs →
      f[(0 : Fin 8)] = some 0x7E#8 ∧ f[(7 : Fin 8)] = some 0x7E#8) ∧
  (∀ (buf : Cells) (x₁ x₂ x₃ x₄ x₅ x₆ : Byte),
    cellsOf [0x7E#8, x₁, x₂, x₃, x₄, x₅, x₆, 0x7E#8] ∈
      streamFrames 0 buf [0x7E#8, x₁, x₂, x₃, x₄, x₅, x₆, 0x7E#8])

/-- R116: eight bytes with the sentinel at both ends are completed exactly when `len = 0` before the first of them; then
the results are INCOMPLETE seven times and COMPLETE with those bytes, and `len = 0` afterwards. -/
def Obligations.FrameCapturedExactlyFromEmpty : Prop :=
  ∀ (len : Fin 8) (buf : Cells) (x₁ x₂ x₃ x₄ x₅ x₆ : Byte) (F : List Byte),
    F = [0x7E#8, x₁, x₂, x₃, x₄, x₅, x₆, 0x7E#8] →
    (len = 0 → streamResults len buf F = List.replicate 7 .incomplete ++ [.complete] ∧
      streamFrames len buf F = [cellsOf F] ∧ (streamEnd len buf F).1 = 0) ∧
    ((streamResults len buf F).getLast? = some .complete ↔ len = 0)

/-- R117: seven accepted bytes, none of them the sentinel, leave `len = 0` whatever the state before, with the results the
rule lists; from `len = 1` six leave `len = 7`; and a well-formed frame is captured after at least seven such bytes, and
after bytes each of which gave DISCARDED from `len = 0` (none of them, right after a reset, included). -/
def Obligations.SevenNonSentinelBytesDrain : Prop :=
  (∀ (len : Fin 8) (buf : Cells) (bs : List Byte), bs.length = 7 → (∀ b ∈ bs, b ≠ 0x7E#8) →
    (streamEnd len buf bs).1 = 0 ∧
    (len = 0 → streamResults len buf bs = List.replicate 7 .discarded) ∧
    (len ≠ 0 → streamResults len buf bs =
      List.replicate (7 - len.val) .incomplete ++ List.replicate len.val .discarded)) ∧
  (∀ (buf : Cells) (bs : List Byte), bs.length = 6 → (∀ b ∈ bs, b ≠ 0x7E#8) → (streamEnd 1 buf bs).1 = 7) ∧
  (∀ (len : Fin 8) (buf : Cells) (bs F : List Byte) (x₁ x₂ x₃ x₄ x₅ x₆ : Byte),
    F = [0x7E#8, x₁, x₂, x₃, x₄, x₅, x₆, 0x7E#8] →
    ((7 ≤ bs.length ∧ ∀ b ∈ bs, b ≠ 0x7E#8) ∨
      (len = 0 ∧ streamResults len buf bs = List.replicate bs.length .discarded)) →
    streamFrames len buf (bs ++ F) = [cellsOf F])

/-- R118 (c) and (d): a stream that starts inside a frame, whose frames hold no sentinel at offsets 1 to 6, and whose gaps
are `G ≤ 6` bytes other than the sentinel, never completes a frame of the stream: nothing at all for `G < 6`, and for
`G = 6` only the gap bytes between two sentinels, once per frame. -/
def Obligations.ShortGapsNeverSynchronize : Prop :=
  ∀ (G : Nat) (buf : Cells) (head : List Byte) (frames : List (List Byte × List Byte)),
    G ≤ 6 → (∀ b ∈ head, b ≠ 0x7E#8) →
    (∀ p ∈ frames, p.1.length = G ∧ (∀ b ∈ p.1, b ≠ 0x7E#8) ∧ p.2.length = 6 ∧ ∀ b ∈ p.2, b ≠ 0x7E#8) →
    ∀ stream : List Byte,
      stream = head ++ [0x7E#8] ++ frames.flatMap (fun p => p.1 ++ [0x7E#8] ++ p.2 ++ [0x7E#8]) →
      (streamEnd 0 buf stream).1 = 1 ∧
      (G < 6 → streamFrames 0 buf stream = []) ∧
      (G = 6 → streamFrames 0 buf stream = frames.map fun p => cellsOf ([0x7E#8] ++ p.1 ++ [0x7E#8]))

/-- R110: no two completed frames share a byte. When a stream from the empty buffer ends on a COMPLETE, its last eight
bytes are that frame and were assembled from `len = 0`; the frames before them are those of the bytes before them, and
whatever follows is assembled from the empty buffer again. So a stream needs eight bytes for each frame it completes. -/
def Obligations.EachFrameNeedsEightBytes : Prop :=
  (∀ (buf : Cells) (bs cs : List Byte), (streamResults 0 buf bs).getLast? = some .complete →
    ∃ before window : List Byte, bs = before ++ window ∧ window.length = 8 ∧ (streamEnd 0 buf before).1 = 0 ∧
      streamEnd 0 buf bs = (0, bottomCells) ∧
      streamFrames 0 buf (bs ++ cs) =
        streamFrames 0 buf before ++ [cellsOf window] ++ streamFrames 0 bottomCells cs) ∧
  (∀ (buf : Cells) (bs : List Byte), 8 * (streamFrames 0 buf bs).length ≤ bs.length)

/-- R119: every accepted byte yields exactly one of INCOMPLETE, COMPLETE and DISCARDED, so after `n` accepted bytes the
three counts sum to `n`, and a frame is completed for each COMPLETE; a step that accepts no byte yields NONE. -/
def Obligations.OneResultPerAcceptedByte : Prop :=
  (∀ (len : Fin 8) (buf : Cells) (bs : List Byte),
    (streamResults len buf bs).count .incomplete + (streamResults len buf bs).count .complete +
      (streamResults len buf bs).count .discarded = bs.length ∧
    ResCode.none ∉ streamResults len buf bs ∧
    (streamFrames len buf bs).length = (streamResults len buf bs).count .complete) ∧
  (∀ (v : InputVector) (s t : State), acceptedByte v s = none → exec (decode v) s = .next t → t.resCode = .none)

/-- R150: a transport that holds each byte until it is accepted loses none and repeats none, however it pauses and however
long the host leaves a reading pending. From any state the transport has parted with exactly one byte, the next of the
stream, for each result other than NONE that the block has shown. From any state that meets the invariant and stands for
the source's buffer, the bytes gone and the bytes still held make up the stream, the bytes gone are those accepted, and
the results shown, frames included, are those of the source's `feedByte` on them: each was processed once, in order. -/
def Obligations.HeldBytesAreNeverLost : Prop :=
  (∀ (choices : List (Bool × Bool)) (stream : List Byte) (s : State) (vs : List InputVector) (held : List Byte),
    holdingRun choices stream s = (vs, held) →
    held = stream.drop ((runShown vs s).countP fun shown => shown.1 != .none)) ∧
  (∀ (choices : List (Bool × Bool)) (stream : List Byte) (s : State) (buffer : List Byte) (vs : List InputVector)
    (held : List Byte), BlockInv s → Represents s buffer → holdingRun choices stream s = (vs, held) →
    ∃ gone, stream = gone ++ held ∧ runAccepted vs s = gone ∧
      (runShown vs s).filterMap shownResult = feedBytes buffer gone)

/-! ### The block and the source (spec/00_scope.md R3) -/

/-- R3 for the synchronizer: over any run of input vectors without a reset, from any state that meets the invariant and
stands for the source's buffer, the results the registers show one after another (the frame included) are those of the
source's `feedByte` on the bytes accepted; and the reset state stands for the empty buffer. -/
def Obligations.RunShowsSourceResults : Prop :=
  (∀ (vs : List InputVector) (s : State) (buffer : List Byte), BlockInv s → Represents s buffer →
    (∀ v ∈ vs, InputVector.rst v = false) →
    (runShown vs s).filterMap shownResult = feedBytes buffer (runAccepted vs s)) ∧
  Represents State.reset []

/-- R3 for the decoder: what the host samples while a frame is held is the source's decoded reading of that frame. -/
def Obligations.SampledReadingIsSourceDecode : Prop :=
  ∀ (s : State) (f₀ f₁ f₂ f₃ f₄ f₅ f₆ f₇ : Byte), s.outValid = true →
    s.outFrame = cellsOf [f₀, f₁, f₂, f₃, f₄, f₅, f₆, f₇] →
    sampleReading s = .next (sourceDecode f₀ f₁ f₂ f₃ f₄ f₅ f₆ f₇)

/-! ### The CRC generator (spec/40_crc.md) -/

/-- R81: the bit step on 16-bit values written as numbers, with the rule's corner cases and example. -/
def Obligations.CrcBitStep : Prop :=
  (∀ r : Crc, (crcBit r).toNat =
    if r.toNat ≥ 32768 then (2 * r.toNat % 65536) ^^^ 0x1021 else 2 * r.toNat) ∧
  crcBit 0x0000#16 = 0x0000#16 ∧ crcBit 0x8000#16 = 0x1021#16 ∧ crcBit 0xFFFF#16 = 0xEFDF#16 ∧
  crcBit 0xFEFF#16 = 0xEDDF#16

/-- R82: the byte step is eight bit steps after the byte is XORed into the high byte, with the rule's values. -/
def Obligations.CrcByteStep : Prop :=
  (∀ (r : Crc) (b : Byte), crcByte r b = crcBit^[8] (r ^^^ BitVec.ofNat 16 (b.toNat * 256))) ∧
  crcByte 0xFFFF#16 0xFF#8 = 0xFF00#16 ∧ crcByte 0xFFFF#16 0x00#8 = 0xE1F0#16 ∧
  crcByte 0xFFFF#16 0x01#8 = 0xF1D1#16 ∧
  (List.range 8).map (fun k => crcBit^[k + 1] 0xFEFF#16) =
    [0xEDDF#16, 0xCB9F#16, 0x871F#16, 0x1E1F#16, 0x3C3E#16, 0x787C#16, 0xF0F8#16, 0xF1D1#16]

/-- R83: the CRC starts at 0xFFFF, takes the bytes in order, and its result is the raw register; with the rule's example.
R88: the rules reproduce the published check value over the nine ASCII digits. -/
def Obligations.CrcOfSequence : Prop :=
  crc16 [] = 0xFFFF#16 ∧ (∀ bs : List Byte, crc16 bs = bs.foldl crcByte 0xFFFF#16) ∧
  crc16 [0x01#8] = 0xF1D1#16 ∧ crc16 [0x01#8, 0x05#8] = 0x7E9B#16 ∧ crc16 [0x01#8, 0x05#8, 0x10#8] = 0x1668#16 ∧
  crc16 [0x01#8, 0x05#8, 0x10#8, 0x20#8] = 0x3E95#16 ∧
  crc16 [0x31#8, 0x32#8, 0x33#8, 0x34#8, 0x35#8, 0x36#8, 0x37#8, 0x38#8, 0x39#8] = 0x29B1#16

/-- R86: the CRC can be continued from any split point. -/
def Obligations.CrcFoldLaw : Prop :=
  ∀ bs cs : List Byte, crc16 (bs ++ cs) = cs.foldl crcByte (crc16 bs)

/-- R87: appending a sequence's own CRC, high byte first, gives the CRC 0; with the rule's example. -/
def Obligations.CrcResidueLaw : Prop :=
  (∀ bs : List Byte, crc16 (bs ++ [highByte (crc16 bs), lowByte (crc16 bs)]) = 0x0000#16) ∧
  crc16 [0x01#8, 0x05#8, 0x10#8, 0x20#8, 0x3E#8, 0x95#8] = 0x0000#16

/-! ### Decoder outputs (spec/42_decode.md R131 to R139, spec/20_memory.md R45) -/

/-- R131: the field outputs are the frame's bytes 1 to 4, unchanged. -/
def Obligations.FieldOutputs : Prop :=
  ∀ (s : State) (f₀ f₁ f₂ f₃ f₄ f₅ f₆ f₇ : Byte), s.outValid = true →
    s.outFrame = cellsOf [f₀, f₁, f₂, f₃, f₄, f₅, f₆, f₇] →
    outType s = some f₁ ∧ outDispid s = some f₂ ∧ outQuery s = some f₃ ∧ outData s = some f₄

/-- R132 to R134: the asserted CRC is the big-endian pair at offsets 5 and 6, the computed one is over bytes 1 to 4 only,
and the flag is their equality. -/
def Obligations.CrcOutputs : Prop :=
  ∀ (s : State) (f₀ f₁ f₂ f₃ f₄ f₅ f₆ f₇ : Byte), s.outValid = true →
    s.outFrame = cellsOf [f₀, f₁, f₂, f₃, f₄, f₅, f₆, f₇] →
    (∃ a : Crc, outCrcAsserted s = some a ∧ a.toNat = 256 * f₅.toNat + f₆.toNat ∧
      outCrcComputed s = some (crc16 [f₁, f₂, f₃, f₄]) ∧
      outCrcValid s = some (decide (a = crc16 [f₁, f₂, f₃, f₄])))

/-- R134's corner case (and 90_conflicts.md C3): two held frames with the same bytes 1 to 4, the first CRC-valid and the
second with any other CRC bytes: the second is not CRC-valid, and its fields, class and computed CRC are the first's. -/
def Obligations.CorruptedCrcBytesDetected : Prop :=
  ∀ (s s' : State) (f₀ f₁ f₂ f₃ f₄ f₅ f₆ f₇ g₀ g₅ g₆ g₇ : Byte), s.outValid = true → s'.outValid = true →
    s.outFrame = cellsOf [f₀, f₁, f₂, f₃, f₄, f₅, f₆, f₇] → s'.outFrame = cellsOf [g₀, f₁, f₂, f₃, f₄, g₅, g₆, g₇] →
    outCrcValid s = some true → (g₅ ≠ f₅ ∨ g₆ ≠ f₆) →
    outCrcValid s' = some false ∧ outCrcComputed s' = outCrcComputed s ∧ outCrcAsserted s' ≠ outCrcAsserted s ∧
    outDispid s' = outDispid s ∧ outType s' = outType s ∧ outTypeClass s' = outTypeClass s ∧
    outQuery s' = outQuery s ∧ outData s' = outData s

/-- R135 and R66: the class code of every type; 0b11 is never driven, in any state. -/
def Obligations.TypeClassOutput : Prop :=
  (∀ (s : State) (t : Byte), outType s = some t →
    outTypeClass s = some (if t = 0x01#8 then 0b01#2 else if t = 0x02#8 then 0b10#2 else 0b00#2)) ∧
  (∀ s : State, outTypeClass s ≠ some 0b11#2)

/-- R45: frame offset `i` is in bits 63-8i down to 56-8i of the output bus. -/
def Obligations.FrameBusPacking : Prop :=
  ∀ (s : State) (f₀ f₁ f₂ f₃ f₄ f₅ f₆ f₇ : Byte), s.outValid = true →
    s.outFrame = cellsOf [f₀, f₁, f₂, f₃, f₄, f₅, f₆, f₇] →
    ∃ bus : BitVec 64, outFrameBus s = some bus ∧
      (∀ (i : Fin 8) (b : Byte), s.outFrame[i] = some b → bus.extractLsb' (56 - 8 * i.val) 8 = b) ∧
      busBytes bus = [f₀, f₁, f₂, f₃, f₄, f₅, f₆, f₇]

/-- R136 and R139: a byte that closes a frame presents it whatever its CRC and type: from every state that meets the
invariant with seven bytes buffered and nothing pending, FEED and FEED_TAKE of the sentinel answer a state whose every
output is defined. -/
def Obligations.EveryCompletedFramePresented : Prop :=
  ∀ (s : State) (i : Instr), BlockInv s → s.outValid = false → s.len = 7 → i = .feed 0x7E#8 ∨ i = .feedTake 0x7E#8 →
    ∃ t, exec i s = .next t ∧ t.outValid = true ∧ t.resCode = .complete ∧
      (outFrameBus t).isSome ∧ (outType t).isSome ∧ (outDispid t).isSome ∧ (outQuery t).isSome ∧
      (outData t).isSome ∧ (outCrcAsserted t).isSome ∧ (outCrcComputed t).isSome ∧ (outCrcValid t).isSome ∧
      (outTypeClass t).isSome

/-- R196: while `out_valid = 0` a host's read of any output other than `out_valid` is a fault that names it. -/
def Obligations.ReadingBottomOutputFaults : Prop :=
  ∀ s : State, s.outValid = false →
    hostRead .outFrame (outFrameBus s) = .fault (.bottomRead .outFrame) ∧
    hostRead .outType (outType s) = .fault (.bottomRead .outType) ∧
    hostRead .outDispid (outDispid s) = .fault (.bottomRead .outDispid) ∧
    hostRead .outQuery (outQuery s) = .fault (.bottomRead .outQuery) ∧
    hostRead .outData (outData s) = .fault (.bottomRead .outData) ∧
    hostRead .outCrcAsserted (outCrcAsserted s) = .fault (.bottomRead .outCrcAsserted) ∧
    hostRead .outCrcComputed (outCrcComputed s) = .fault (.bottomRead .outCrcComputed) ∧
    hostRead .outCrcValid (outCrcValid s) = .fault (.bottomRead .outCrcValid) ∧
    hostRead .outTypeClass (outTypeClass s) = .fault (.bottomRead .outTypeClass)

/-! ### The host (spec/43_host.md) -/

/-- R153: the labels of the class codes; 0b11 is refused. -/
def Obligations.LabelOfClass : Prop :=
  label 0b01#2 = .next .temperature ∧ label 0b10#2 = .next .humidity ∧ label 0b00#2 = .next .unknown ∧
    label 0b11#2 = .refused .reservedTypeClass ∧
    TypeLabel.temperature.text = "temperature" ∧ TypeLabel.humidity.text = "humidity" ∧
    TypeLabel.unknown.text = "unknown"

/-- R154: byte `i` of the frame is rendered by the two uppercase hexadecimal digits at places 3i and 3i+1, one space stands
between consecutive bytes, and eight bytes give 23 characters; with the rule's example. That a separator is exactly one
space and that none leads or trails is marked in R154 as the spec's own reading, and the character codes behind the digits
and the space are log entry 16 (PRESUMED). -/
def Obligations.RenderedFrameForm : Prop :=
  render [0x7E#8, 0x01#8, 0x05#8, 0x10#8, 0x20#8, 0x3E#8, 0x95#8, 0x7E#8] = "7E 01 05 10 20 3E 95 7E" ∧
  ∀ bs : List Byte, bs.length = 8 → (render bs).toList = renderChars bs ∧
    (renderChars bs).length = 23 ∧
    (∀ (i : Nat) (b : Byte), bs[i]? = some b →
      (renderChars bs)[3 * i]? = "0123456789ABCDEF".toList[b.toNat / 16]? ∧
      (renderChars bs)[3 * i + 1]? = "0123456789ABCDEF".toList[b.toNat % 16]?) ∧
    (∀ i, i < 7 → (renderChars bs)[3 * i + 2]? = some ' ')

/-- R157: a byte whose result is INCOMPLETE or DISCARDED causes no persistence call and no event: after the serving of a
reading that was still pending (there is none when `out_valid = 0`), the host does nothing, whatever its choices. Whatever
is driven in a cycle, the host does nothing in it while `out_valid = 0`, and has then no processed reading on its hands; that
last clause is about the host's own bit, which is log entry 11's choice. -/
def Obligations.NoActionWithoutCompletion : Prop :=
  (∀ (Store SensorId Err : Type) (env : HostEnv Store SensorId Err) (p : BytePlan) (b : Byte)
    (y y₁ y' : System Store SensorId Err),
    serveReading env p.pending y = .next y₁ → (assemble y₁.block.len y₁.block.buf b).res ≠ .complete →
    onByte env p b y = .next y' →
    y'.log = y₁.log ∧ y'.store = y₁.store ∧ (y.block.outValid = false → y₁ = y)) ∧
  (∀ (Store SensorId Err : Type) (env : HostEnv Store SensorId Err) (c : HostCycle) (y : System Store SensorId Err),
    y.block.outValid = false →
    ∃ y', hostCycle env c y = .next y' ∧ y'.log = y.log ∧ y'.store = y.store ∧ y'.processed = false)

/-- R151 and R156: the host's processing of a byte never stops, whatever the persistence collaborator answers and whatever
the plan, and it ends with the reading taken, so the block goes on with the next byte. The take is FEED_TAKE when the
transport offers a byte at it and TAKE when it offers none, and which of the two it is, how long it is delayed and how long
`out_ready` stays asserted changes nothing in the outcome. In any cycle whose edge takes the reading, by either operation,
it has been processed before or is processed then, never twice, and the take follows. That one reading is processed within
one cycle, and that the host remembers it in a bit of its own, is log entry 11's choice. -/
def Obligations.HostAlwaysTakesReading : Prop :=
  (∀ (Store SensorId Err : Type) (env : HostEnv Store SensorId Err) (p : BytePlan) (b : Byte)
    (y : System Store SensorId Err), BlockInv y.block →
    ∃ y', onByte env p b y = .next y' ∧ BlockInv y'.block ∧ y'.block.outValid = false ∧
      inReady y'.block = true ∧ y'.block.inputs = y.block.inputs) ∧
  (∀ b : Byte, decode (driveVector (some b) true) = .feedTake b ∧ decode (driveVector none true) = .take) ∧
  (∀ (Store SensorId Err : Type) (env : HostEnv Store SensorId Err) (p q : TakePlan) (y : System Store SensorId Err),
    serveReading env p y = serveReading env q y) ∧
  (∀ (Store SensorId Err : Type) (env : HostEnv Store SensorId Err) (c : HostCycle) (y : System Store SensorId Err),
    BlockInv y.block → takesReading c.vector y.block = true →
    ∃ y', hostCycle env c y = .next y' ∧ y'.block.outValid = false ∧ y'.processed = false ∧
      (y.processed = true → y'.store = y.store ∧ y'.log = y.log ++ [.take]) ∧
      (y.processed = false → ∃ r, sampleReading y.block = .next r ∧ y'.store = (persist env r y.store).store ∧
        y'.log = y.log ++ (persist env r y.store).actions ++
          afterPersistence env r (persist env r y.store).failure ++ [.take]))

/-- R152, R155 and R151 together: what serving a pending reading does, in order, when no persistence call fails: find, a
create only for an absent sensor, record linked to that sensor, event, take; whichever way the reading is taken. -/
def Obligations.ServingOrder : Prop :=
  ∀ (Store SensorId Err : Type) (env : HostEnv Store SensorId Err) (p : TakePlan) (y : System Store SensorId Err)
    (r : DecodedReading) (st₁ st₂ st₃ : Store) (x : SensorId),
    y.block.outValid = true → y.processed = false → sampleReading y.block = .next r →
    env.recordReading x r.query r.data r.crcValid r.rawFrame st₂ = (.ok (), st₃) →
    (env.findSensorByDeviceId r.dispId y.store = (.ok (some x), st₂) →
      ∃ y', serveReading env p y = .next y' ∧ y'.store = st₃ ∧ y'.block.outValid = false ∧
        y'.log = y.log ++ [.find r.dispId, .record x r.query r.data r.crcValid r.rawFrame,
          .event r.dispId r.typeLabel r.data r.crcValid, .take]) ∧
    (env.findSensorByDeviceId r.dispId y.store = (.ok none, st₁) →
      env.createSensor r.dispId r.type (env.describeType r.typeLabel) st₁ = (.ok x, st₂) →
      ∃ y', serveReading env p y = .next y' ∧ y'.store = st₃ ∧ y'.block.outValid = false ∧
        y'.log = y.log ++ [.find r.dispId, .create r.dispId r.type (env.describeType r.typeLabel),
          .record x r.query r.data r.crcValid r.rawFrame, .event r.dispId r.typeLabel r.data r.crcValid, .take])

/-- R156: a persistence failure is neither retried nor suppressed: whichever call fails (the lookup, the create, or the
record of a sensor found or just created), it is the reading's last call, the failure is reported, and the take follows.
That a lookup or a create can fail at all is log entry 9's choice. That the report stands before the take, and after the
event where there is one, is log entry 10's choice; whether there is an event is the environment's (log entry 10). -/
def Obligations.PersistenceFailureReported : Prop :=
  ∀ (Store SensorId Err : Type) (env : HostEnv Store SensorId Err) (p : TakePlan) (y : System Store SensorId Err)
    (r : DecodedReading) (st₁ st₂ st : Store) (x : SensorId) (e : Err) (calls : List (HostAction SensorId Err)),
    y.block.outValid = true → y.processed = false → sampleReading y.block = .next r →
    ((env.findSensorByDeviceId r.dispId y.store = (.error e, st) ∧ calls = [.find r.dispId]) ∨
     (env.findSensorByDeviceId r.dispId y.store = (.ok none, st₁) ∧
      env.createSensor r.dispId r.type (env.describeType r.typeLabel) st₁ = (.error e, st) ∧
      calls = [.find r.dispId, .create r.dispId r.type (env.describeType r.typeLabel)]) ∨
     (env.findSensorByDeviceId r.dispId y.store = (.ok none, st₁) ∧
      env.createSensor r.dispId r.type (env.describeType r.typeLabel) st₁ = (.ok x, st₂) ∧
      env.recordReading x r.query r.data r.crcValid r.rawFrame st₂ = (.error e, st) ∧
      calls = [.find r.dispId, .create r.dispId r.type (env.describeType r.typeLabel),
        .record x r.query r.data r.crcValid r.rawFrame]) ∨
     (env.findSensorByDeviceId r.dispId y.store = (.ok (some x), st₁) ∧
      env.recordReading x r.query r.data r.crcValid r.rawFrame st₁ = (.error e, st) ∧
      calls = [.find r.dispId, .record x r.query r.data r.crcValid r.rawFrame])) →
    ∃ y', serveReading env p y = .next y' ∧ y'.store = st ∧ y'.block.outValid = false ∧
      y'.log = y.log ++ calls ++
        (if env.eventAfterFailure then [.event r.dispId r.typeLabel r.data r.crcValid] else []) ++
        [.reportFailure e, .take]

/-- R158: the same well-formed frame fed twice, with a collaborator that remembers the sensors it created and had none for
this device: one sensor is created and two equal readings are recorded for it, whatever the choices around each byte. -/
def Obligations.SameFrameTwiceOneSensorTwoReadings : Prop :=
  ∀ (Store SensorId Err : Type) (env : HostEnv Store SensorId Err) (known : Store → Byte → Option SensorId)
    (y : System Store SensorId Err) (t d q v h l : Byte) (r : DecodedReading) (F : List Byte)
    (offers : List (BytePlan × Byte)),
    env.Remembers known → y.block.len = 0 → y.block.outValid = false → known y.store d = none →
    F = [0x7E#8, t, d, q, v, h, l, 0x7E#8] → r = sourceDecode 0x7E#8 t d q v h l 0x7E#8 →
    offers.map Prod.snd = F ++ F →
    ∃ (y' : System Store SensorId Err) (x : SensorId), onBytes env offers y = .next y' ∧
      known y'.store d = some x ∧ y'.block.outValid = false ∧
      y'.log = y.log ++
        [.find d, .create d t (env.describeType r.typeLabel), .record x q v r.crcValid r.rawFrame,
          .event d r.typeLabel v r.crcValid, .take] ++
        [.find d, .record x q v r.crcValid r.rawFrame, .event d r.typeLabel v r.crcValid, .take]

/-! ### The notation (spec/30_encoding.md R70) -/

/-- R70: what the three pseudo-instructions expand to. -/
def Obligations.PseudoInstructionExpansion : Prop :=
  (∀ bs : List Byte, bs ≠ [] →
    expandLine { word := .feeds, operands := bs.map BitVec.toNat } = some (bs.map .feed)) ∧
  (∀ t d q v : Byte, expandLine { word := .frame, operands := [t.toNat, d.toNat, q.toNat, v.toNat] } =
    some (([0x7E#8, t, d, q, v, highByte (crc16 [t, d, q, v]), lowByte (crc16 [t, d, q, v]), 0x7E#8]).map .feed)) ∧
  (∀ t d q v h l : Byte,
    expandLine { word := .framec, operands := [t.toNat, d.toNat, q.toNat, v.toNat, h.toNat, l.toNat] } =
    some (([0x7E#8, t, d, q, v, h, l, 0x7E#8]).map .feed))

/-- A frame built with its own CRC (R70 FRAME), fed from the empty buffer with nothing pending, leaves a pending reading
with its four fields and a valid CRC (R116, R134). -/
def Obligations.FrameWithOwnCrcIsValid : Prop :=
  ∀ (s : State) (t d q v : Byte), s.len = 0 → s.outValid = false →
    ∃ u, runEnd ((frameBytes t d q v).map fun b => encode (.feed b)) s = .next u ∧
      u.len = 0 ∧ u.outValid = true ∧ u.resCode = .complete ∧ outCrcValid u = some true ∧
      outType u = some t ∧ outDispid u = some d ∧ outQuery u = some q ∧ outData u = some v
end

