-- ==== Sys2Proof/Laws/Fields.lean ====
section
/-! SUPPORT. Small laws of byte lists, slices, the CRC folds and the outputs. -/

namespace Sys2Proof.Machine

@[simp] theorem allBytes_nil : allBytes [] = some [] := rfl

@[simp] theorem allBytes_none (cs : List (Option Byte)) : allBytes (none :: cs) = none := rfl

@[simp] theorem allBytes_some (b : Byte) (cs : List (Option Byte)) :
    allBytes (some b :: cs) = (allBytes cs).map (b :: ·) := rfl

/-- Cells that all hold bytes give those bytes. -/
theorem allBytes_map_some (bs : List Byte) : allBytes (bs.map some) = some bs := by
  induction bs with
  | nil => rfl
  | cons b bs ih => simp [ih]

@[simp] theorem crcFold_nil (r : Crc) : crcFold r [] = r := rfl

@[simp] theorem crcFold_cons (r : Crc) (b : Byte) (bs : List Byte) :
    crcFold r (b :: bs) = crcFold (crcByte r b) bs := rfl

theorem whileValid_of_valid {α : Type} {s : State} (v : Option α) (h : s.outValid = true) : whileValid s v = v := by
  simp [whileValid, h]

theorem whileValid_of_empty {α : Type} {s : State} (v : Option α) (h : s.outValid = false) :
    whileValid s v = none := by
  simp [whileValid, h]

theorem cellsOf_get (bs : List Byte) (i : Fin 8) : (cellsOf bs)[i] = bs[i.val]? := by
  simp [cellsOf]

/-- Eight cells are written out in full. -/
theorem cells_toList (f : Cells) :
    f.toList = [f[(0 : Fin 8)], f[(1 : Fin 8)], f[(2 : Fin 8)], f[(3 : Fin 8)], f[(4 : Fin 8)], f[(5 : Fin 8)],
      f[(6 : Fin 8)], f[(7 : Fin 8)]] := by
  apply List.ext_getElem
  · simp
  · intro i h1 h2
    have : i < 8 := by simpa using h2
    interval_cases i <;> simp

end Sys2Proof.Machine
end

