-- ==== Sys2Proof/Laws/State.lean ====
section
/-! SUPPORT. One lemma per field per update of State, true by rfl. -/

namespace Sys2Proof.Machine

variable (s : State)

@[simp] theorem State.setRes_len (r : ResCode) : (s.setRes r).len = s.len := rfl
@[simp] theorem State.setRes_buf (r : ResCode) : (s.setRes r).buf = s.buf := rfl
@[simp] theorem State.setRes_outValid (r : ResCode) : (s.setRes r).outValid = s.outValid := rfl
@[simp] theorem State.setRes_outFrame (r : ResCode) : (s.setRes r).outFrame = s.outFrame := rfl
@[simp] theorem State.setRes_resCode (r : ResCode) : (s.setRes r).resCode = r := rfl
@[simp] theorem State.setRes_inputs (r : ResCode) : (s.setRes r).inputs = s.inputs := rfl

@[simp] theorem State.setAttempt_len (n : Fin 8) (c : Cells) : (s.setAttempt n c).len = n := rfl
@[simp] theorem State.setAttempt_buf (n : Fin 8) (c : Cells) : (s.setAttempt n c).buf = c := rfl
@[simp] theorem State.setAttempt_outValid (n : Fin 8) (c : Cells) : (s.setAttempt n c).outValid = s.outValid := rfl
@[simp] theorem State.setAttempt_outFrame (n : Fin 8) (c : Cells) : (s.setAttempt n c).outFrame = s.outFrame := rfl
@[simp] theorem State.setAttempt_resCode (n : Fin 8) (c : Cells) : (s.setAttempt n c).resCode = s.resCode := rfl
@[simp] theorem State.setAttempt_inputs (n : Fin 8) (c : Cells) : (s.setAttempt n c).inputs = s.inputs := rfl

@[simp] theorem State.setPending_len (f : Cells) : (s.setPending f).len = s.len := rfl
@[simp] theorem State.setPending_buf (f : Cells) : (s.setPending f).buf = s.buf := rfl
@[simp] theorem State.setPending_outValid (f : Cells) : (s.setPending f).outValid = true := rfl
@[simp] theorem State.setPending_outFrame (f : Cells) : (s.setPending f).outFrame = f := rfl
@[simp] theorem State.setPending_resCode (f : Cells) : (s.setPending f).resCode = s.resCode := rfl
@[simp] theorem State.setPending_inputs (f : Cells) : (s.setPending f).inputs = s.inputs := rfl

@[simp] theorem State.clearPending_len : (s.clearPending).len = s.len := rfl
@[simp] theorem State.clearPending_buf : (s.clearPending).buf = s.buf := rfl
@[simp] theorem State.clearPending_outValid : (s.clearPending).outValid = false := rfl
@[simp] theorem State.clearPending_outFrame : (s.clearPending).outFrame = bottomCells := rfl
@[simp] theorem State.clearPending_resCode : (s.clearPending).resCode = s.resCode := rfl
@[simp] theorem State.clearPending_inputs : (s.clearPending).inputs = s.inputs := rfl

@[simp] theorem noByte_len : (noByte s).len = s.len := rfl
@[simp] theorem noByte_buf : (noByte s).buf = s.buf := rfl
@[simp] theorem noByte_outValid : (noByte s).outValid = s.outValid := rfl
@[simp] theorem noByte_outFrame : (noByte s).outFrame = s.outFrame := rfl
@[simp] theorem noByte_resCode : (noByte s).resCode = .none := rfl
@[simp] theorem noByte_inputs : (noByte s).inputs = s.inputs := rfl

@[simp] theorem resetRegisters_len : (resetRegisters s).len = 0 := rfl
@[simp] theorem resetRegisters_buf : (resetRegisters s).buf = bottomCells := rfl
@[simp] theorem resetRegisters_outValid : (resetRegisters s).outValid = false := rfl
@[simp] theorem resetRegisters_outFrame : (resetRegisters s).outFrame = bottomCells := rfl
@[simp] theorem resetRegisters_resCode : (resetRegisters s).resCode = .none := rfl
@[simp] theorem resetRegisters_inputs : (resetRegisters s).inputs = s.inputs := rfl

@[simp] theorem dropEdge_len : (dropEdge s).len = s.len := rfl
@[simp] theorem dropEdge_buf : (dropEdge s).buf = s.buf := rfl
@[simp] theorem dropEdge_outValid : (dropEdge s).outValid = s.outValid := rfl
@[simp] theorem dropEdge_outFrame : (dropEdge s).outFrame = s.outFrame := rfl
@[simp] theorem dropEdge_resCode : (dropEdge s).resCode = s.resCode := rfl
@[simp] theorem dropEdge_inputs : (dropEdge s).inputs = s.inputs.tail := rfl

@[simp] theorem pushVector_len (v : InputVector) : (pushVector v s).len = s.len := rfl
@[simp] theorem pushVector_buf (v : InputVector) : (pushVector v s).buf = s.buf := rfl
@[simp] theorem pushVector_outValid (v : InputVector) : (pushVector v s).outValid = s.outValid := rfl
@[simp] theorem pushVector_outFrame (v : InputVector) : (pushVector v s).outFrame = s.outFrame := rfl
@[simp] theorem pushVector_resCode (v : InputVector) : (pushVector v s).resCode = s.resCode := rfl
@[simp] theorem pushVector_inputs (v : InputVector) : (pushVector v s).inputs = .vector v :: s.inputs := rfl

@[simp] theorem dropEdge_pushVector (v : InputVector) : dropEdge (pushVector v s) = s := rfl

@[simp] theorem nextEdge_pushVector (v : InputVector) : nextEdge (pushVector v s) = some (.vector v) := rfl

end Sys2Proof.Machine
end

