-- ==== Sys2Proof/Laws/Ops.lean ====
section
/-! SUPPORT. What the shared operations do, said once: cells, the transaction function, an accepted byte, an offered byte,
a take. -/

namespace Sys2Proof.Machine

/-! ### Cells (stated on a plain index, the form simp brings every cell read to) -/

@[simp] theorem bottomCells_get (n : Nat) (h : n < 8) : bottomCells[n] = none := by
  simp [bottomCells]

@[simp] theorem memWrite_get (f : Cells) (i : Fin 8) (b : Byte) (n : Nat) (h : n < 8) :
    (memWrite f i b)[n] = if i.val = n then some b else f[n] := by
  simp [memWrite, Vector.getElem_set]

/-- A write leaves every other cell alone. -/
theorem memWrite_get_other (f : Cells) {i j : Fin 8} (b : Byte) (h : i ≠ j) : (memWrite f i b)[j] = f[j] := by
  have : i.val ≠ j.val := fun e => h (Fin.ext e)
  simp [this]

/-! ### The transaction function -/

/-- The five cases of R102's table, with everything each one does. -/
theorem assemble_cases (len : Fin 8) (buf : Cells) (b : Byte) :
    (len = 0 ∧ b ≠ Config.sentinel ∧ assemble len buf b = ⟨0, buf, .discarded, none⟩) ∨
    (len = 0 ∧ b = Config.sentinel ∧ assemble len buf b = ⟨1, memWrite buf 0 b, .incomplete, none⟩) ∨
    (∃ n : Fin 8, len ≠ 0 ∧ n.val = len.val + 1 ∧
      assemble len buf b = ⟨n, memWrite buf len b, .incomplete, none⟩) ∨
    (len = 7 ∧ b = Config.sentinel ∧ assemble len buf b = ⟨0, bottomCells, .complete, some (memWrite buf 7 b)⟩) ∨
    (len = 7 ∧ b ≠ Config.sentinel ∧ assemble len buf b = ⟨0, bottomCells, .discarded, none⟩) := by
  by_cases h0 : len = 0 <;> by_cases hb : b = Config.sentinel
  · exact .inr (.inl ⟨h0, hb, by simp [assemble, startAttempt, h0, hb]⟩)
  · exact .inl ⟨h0, hb, by simp [assemble, startAttempt, h0, hb]⟩
  all_goals
    by_cases h7 : len.val + 1 < 8
    · exact .inr (.inr (.inl ⟨⟨len.val + 1, h7⟩, h0, rfl, by simp [assemble, h0, h7, Config.frameLen]⟩))
    · have hl : len = 7 := by
        apply Fin.ext
        have := len.isLt
        show len.val = 7
        omega
      subst hl
      first
        | exact .inr (.inr (.inr (.inl ⟨rfl, hb, by simp [assemble, closeAttempt, hb]⟩)))
        | exact .inr (.inr (.inr (.inr ⟨rfl, hb, by simp [assemble, closeAttempt, hb]⟩)))

/-! ### An accepted byte, an offered byte, a take -/

/-- An accepted byte that completes no frame writes `len`, `buf` and `res_code` only. -/
theorem acceptByte_of_noFrame {b : Byte} {s : State} (h : (assemble s.len s.buf b).frame = none) :
    acceptByte b s =
      (s.setAttempt (assemble s.len s.buf b).len (assemble s.len s.buf b).buf).setRes (assemble s.len s.buf b).res := by
  simp [acceptByte, h]

/-- An accepted byte that completes a frame also makes it the pending reading. -/
theorem acceptByte_of_frame {b : Byte} {s : State} {f : Cells} (h : (assemble s.len s.buf b).frame = some f) :
    acceptByte b s =
      ((s.setAttempt (assemble s.len s.buf b).len (assemble s.len s.buf b).buf).setRes
        (assemble s.len s.buf b).res).setPending f := by
  simp [acceptByte, h]

/-- Everything an accepted byte can do, by the five cases of R102. -/
theorem acceptByte_cases (b : Byte) (s : State) :
    (s.len = 0 ∧ b ≠ Config.sentinel ∧ acceptByte b s = { s with resCode := .discarded }) ∨
    (s.len = 0 ∧ b = Config.sentinel ∧
      acceptByte b s = { s with len := 1, buf := memWrite s.buf 0 b, resCode := .incomplete }) ∨
    (∃ n : Fin 8, s.len ≠ 0 ∧ n.val = s.len.val + 1 ∧
      acceptByte b s = { s with len := n, buf := memWrite s.buf s.len b, resCode := .incomplete }) ∨
    (s.len = 7 ∧ b = Config.sentinel ∧
      acceptByte b s = { s with
        len := 0, buf := bottomCells, outValid := true, outFrame := memWrite s.buf 7 b, resCode := .complete }) ∨
    (s.len = 7 ∧ b ≠ Config.sentinel ∧
      acceptByte b s = { s with len := 0, buf := bottomCells, resCode := .discarded }) := by
  rcases assemble_cases s.len s.buf b with ⟨h, hb, e⟩ | ⟨h, hb, e⟩ | ⟨n, h, hn, e⟩ | ⟨h, hb, e⟩ | ⟨h, hb, e⟩
  · refine .inl ⟨h, hb, ?_⟩
    rw [acceptByte_of_noFrame (by rw [e]), e, ← h]
    rfl
  · exact .inr (.inl ⟨h, hb, by rw [acceptByte_of_noFrame (by rw [e]), e]; rfl⟩)
  · exact .inr (.inr (.inl ⟨n, h, hn, by rw [acceptByte_of_noFrame (by rw [e]), e]; rfl⟩))
  · exact .inr (.inr (.inr (.inl ⟨h, hb, by rw [acceptByte_of_frame (by rw [e]), e]; rfl⟩)))
  · exact .inr (.inr (.inr (.inr ⟨h, hb, by rw [acceptByte_of_noFrame (by rw [e]), e]; rfl⟩)))

theorem offerByte_of_ready {b : Byte} {s : State} (h : s.outValid = false) : offerByte b s = acceptByte b s := by
  simp [offerByte, inReady, h]

theorem offerByte_of_pending {b : Byte} {s : State} (h : s.outValid = true) : offerByte b s = noByte s := by
  simp [offerByte, inReady, h]

theorem takeReading_of_pending {s : State} (h : s.outValid = true) : takeReading s = noByte s.clearPending := by
  simp [takeReading, h]

theorem takeReading_of_empty {s : State} (h : s.outValid = false) : takeReading s = noByte s := by
  simp [takeReading, h]

/-- No register operation touches the inputs still to come. -/
theorem acceptByte_inputs (b : Byte) (s : State) : (acceptByte b s).inputs = s.inputs := by
  rcases acceptByte_cases b s with ⟨_, _, e⟩ | ⟨_, _, e⟩ | ⟨_, _, _, e⟩ | ⟨_, _, e⟩ | ⟨_, _, e⟩ <;> rw [e]

end Sys2Proof.Machine
end

