-- ==== Sys2Proof/Laws/Step.lean ====
section
/-! SUPPORT. What each meaning and one step can do, said once. -/

namespace Sys2Proof.Machine

/-! ### The meanings, by the state they leave -/

theorem exec_reset (s : State) : exec .reset s = .next (resetRegisters s) := rfl

theorem exec_idle (s : State) : exec .idle s = .next (noByte s) := rfl

theorem exec_take (s : State) : exec .take s = .next (takeReading s) := rfl

theorem exec_feed (b : Byte) (s : State) : exec (.feed b) s = .next (offerByte b s) := rfl

theorem exec_feedTake_of_pending {b : Byte} {s : State} (h : s.outValid = true) :
    exec (.feedTake b) s = .next (takeReading s) := by
  simp [exec, execFeedTake, h]

theorem exec_feedTake_of_empty {b : Byte} {s : State} (h : s.outValid = false) :
    exec (.feedTake b) s = .next (acceptByte b s) := by
  simp [exec, execFeedTake, h, offerByte_of_ready]

/-- Everything an operation can do to the registers. -/
theorem exec_cases {i : Instr} {s t : State} (h : exec i s = .next t) :
    (i = .reset ∧ t = resetRegisters s) ∨
    (t = noByte s) ∨
    (s.outValid = true ∧ (i = .take ∨ ∃ b, i = .feedTake b) ∧ t = noByte s.clearPending) ∨
    (s.outValid = false ∧ ∃ b, (i = .feed b ∨ i = .feedTake b) ∧ t = acceptByte b s) := by
  cases hv : s.outValid <;> cases i <;>
    simp only [exec, execReset, execIdle, execTake, execFeed, execFeedTake, offerByte, inReady, takeReading, hv,
      Host.Outcome.next.injEq, if_true, if_false, Bool.not_true, Bool.not_false, Bool.false_eq_true] at h <;>
    subst h <;> simp

/-! ### One step -/

/-- Every way a step can answer a next state: no edge came, or one driver's vector was run. -/
theorem step_cases {s t : State} (h : step s = .next t) :
    (s.inputs = [] ∧ t = s) ∨
    (∃ v rest, s.inputs = .vector v :: rest ∧ exec (decode v) { s with inputs := rest } = .next t) := by
  rcases hs : s.inputs with _ | ⟨e, rest⟩
  · simp only [step, nextEdge, hs, List.head?_nil, Host.Outcome.next.injEq] at h
    exact .inl ⟨rfl, h.symm⟩
  · cases e with
    | vector v =>
      refine .inr ⟨v, rest, rfl, ?_⟩
      simpa [step, nextEdge, dropEdge, hs] using h
    | contended => simp [step, nextEdge, hs] at h

end Sys2Proof.Machine
end

