-- ==== Sys2Proof/Laws/Ingest.lean ====
section
/-! SUPPORT. What one cycle of block and host, and the serving of a reading, can do, said once. -/

namespace Sys2Proof.Machine

/-! ### Chained outcomes -/

@[simp] theorem andThen_next {α β : Type} (a : α) (f : α → Result β) : andThen (.next a) f = f a := rfl

@[simp] theorem andThen_fault {α β : Type} (e : Fault) (f : α → Result β) : andThen (.fault e) f = .fault e := rfl

@[simp] theorem andThen_refused {α β : Type} (r : Refusal) (f : α → Result β) : andThen (.refused r) f = .refused r := rfl

theorem andThen_assoc {α β γ : Type} (o : Result α) (f : α → Result β) (g : β → Result γ) :
    andThen (andThen o f) g = andThen o fun a => andThen (f a) g := by
  cases o <;> rfl

/-! ### The vectors a plan drives -/

@[simp] theorem driveVector_rst (o : Option Byte) (r : Bool) : InputVector.rst (driveVector o r) = false := by
  cases o <;> cases r <;> simp [driveVector, packVector, vectorBit, InputVector.rst]

@[simp] theorem driveVector_inValid (o : Option Byte) (r : Bool) :
    InputVector.inValid (driveVector o r) = o.isSome := by
  cases o <;> cases r <;> simp [driveVector, packVector, vectorBit, InputVector.inValid]

@[simp] theorem driveVector_outReady (o : Option Byte) (r : Bool) : InputVector.outReady (driveVector o r) = r := by
  cases o <;> cases r <;> simp [driveVector, packVector, vectorBit, InputVector.outReady]

theorem driveVector_inData (b : Byte) (r : Bool) : InputVector.inData (driveVector (some b) r) = b := by
  apply BitVec.eq_of_getLsbD_eq
  intro i hi
  cases r <;> interval_cases i <;> simp [driveVector, packVector, vectorBit, InputVector.inData]

/-- The operation a plan's vector is: FEED_TAKE or TAKE with `out_ready`, FEED or IDLE without. -/
theorem decode_driveVector (o : Option Byte) (r : Bool) :
    decode (driveVector o r) =
      match o, r with
      | none, false => .idle
      | none, true => .take
      | some b, false => .feed b
      | some b, true => .feedTake b := by
  cases o <;> cases r <;> simp [decode, driveVector_inData]

/-- A plan's vector takes a pending reading exactly when `out_ready` is asserted. -/
@[simp] theorem takesReading_driveVector (o : Option Byte) (r : Bool) (s : State) :
    takesReading (driveVector o r) s = (r && s.outValid) := by
  simp [takesReading]

/-- While a reading is pending a vector with `out_ready = 0` changes nothing but `res_code`. -/
theorem exec_driveVector_wait {s : State} (o : Option Byte) (h : s.outValid = true) :
    exec (decode (driveVector o false)) s = .next (noByte s) := by
  cases o <;> simp [decode_driveVector, exec_idle, exec_feed, offerByte_of_pending h]

/-- While a reading is pending a vector with `out_ready = 1` takes it, whether it is TAKE or FEED_TAKE. -/
theorem exec_driveVector_take {s : State} (o : Option Byte) (h : s.outValid = true) :
    exec (decode (driveVector o true)) s = .next (takeReading s) := by
  cases o <;> simp [decode_driveVector, exec_take, exec_feedTake_of_pending h]

/-- With nothing pending an offered byte is accepted, whether the vector is FEED or FEED_TAKE. -/
theorem exec_driveVector_byte {s : State} (b : Byte) (r : Bool) (h : s.outValid = false) :
    exec (decode (driveVector (some b) r)) s = .next (acceptByte b s) := by
  cases r <;> simp [decode_driveVector, exec_feed, offerByte_of_ready h, exec_feedTake_of_empty h]

section
variable {Store SensorId Err : Type} (env : HostEnv Store SensorId Err) {y : System Store SensorId Err}

/-! ### One cycle -/

/-- The host does nothing while nothing is pending (R157): only the block moves. -/
theorem hostCycle_of_empty (c : HostCycle) (h : y.block.outValid = false) :
    hostCycle env c y =
      andThen (exec (decode c.vector) y.block) fun block => .next { y with block, processed := false } := by
  simp [hostCycle, processesIn, takesReading, h]

/-- A cycle in which a pending reading waits, processed now at the latest. -/
theorem hostCycle_wait (o : Option Byte) (h : y.block.outValid = true) :
    hostCycle env { vector := driveVector o false, processNow := true } y =
      andThen (if y.processed then .next y else processReading env y) fun y₁ =>
        .next { y₁ with block := noByte y.block } := by
  cases hp : y.processed
  · cases hq : sampleReading y.block <;>
      simp [hostCycle, processesIn, processReading, h, hp, hq, exec_driveVector_wait]
  · simp [hostCycle, processesIn, h, hp, exec_driveVector_wait]

/-- A cycle whose edge takes the pending reading: processed now, unless it was before. -/
theorem hostCycle_take (o : Option Byte) (n : Bool) (h : y.block.outValid = true) :
    hostCycle env { vector := driveVector o true, processNow := n } y =
      andThen (if y.processed then .next y else processReading env y) fun y₁ =>
        .next { y₁ with block := takeReading y.block, log := y₁.log ++ [.take], processed := false } := by
  have ht : (takeReading y.block).outValid = false := by simp [takeReading_of_pending h]
  cases hp : y.processed
  · cases hq : sampleReading y.block <;>
      simp [hostCycle, processesIn, processReading, h, hp, hq, ht, exec_driveVector_take]
  · simp [hostCycle, processesIn, h, hp, ht, exec_driveVector_take]

/-! ### Runs, and a reading served -/

/-- Cycles without a byte after a take change nothing, whatever `out_ready` is. -/
theorem hostRun_after (rs : List Bool) (h : y.block.outValid = false) (hr : y.block.resCode = .none)
    (hp : y.processed = false) :
    hostRun env (rs.map fun r => { vector := driveVector none r, processNow := false }) y = .next y := by
  have hb : noByte y.block = y.block := by
    show { y.block with resCode := ResCode.none } = y.block
    rw [← hr]
  have hy : ({ y with block := y.block, processed := false } : System Store SensorId Err) = y := by rw [← hp]
  induction rs with
  | nil => rfl
  | cons r rs ih =>
    have he : exec (decode (driveVector none r)) y.block = .next y.block := by
      cases r <;> simp [decode_driveVector, exec_idle, exec_take, takeReading_of_empty h, hb]
    rw [List.map_cons, hostRun, hostCycle_of_empty env _ h, he, andThen_next, andThen_next, hy]
    exact ih

/-- Serving a pending reading, whatever the plan: it is processed unless it was before, then it is gone and the take
logged. -/
theorem serveReading_of_pending (p : TakePlan) (h : y.block.outValid = true) :
    serveReading env p y =
      andThen (if y.processed then .next y else processReading env y) fun y₁ =>
        .next { y₁ with block := takeReading y.block, log := y₁.log ++ [.take], processed := false } := by
  have tail : ∀ z : System Store SensorId Err, z.block.outValid = true →
      hostRun env ({ vector := driveVector p.atTake true, processNow := true } ::
        p.after.map fun r => { vector := driveVector none r, processNow := false }) z =
      andThen (if z.processed then .next z else processReading env z) fun z₁ =>
        .next { z₁ with block := takeReading z.block, log := z₁.log ++ [.take], processed := false } := by
    intro z hz
    rw [hostRun, hostCycle_take env _ _ hz, andThen_assoc]
    congr 1
    funext z₁
    exact hostRun_after env _ (by simp [takeReading_of_pending hz]) (by simp [takeReading_of_pending hz]) rfl
  rw [serveReading, if_pos h, TakePlan.cycles]
  generalize p.delay = delay
  induction delay generalizing y with
  | nil => exact tail y h
  | cons o os ih =>
    rw [List.map_cons, List.cons_append, hostRun, hostCycle_wait env o h, andThen_assoc]
    have hn : takeReading (noByte y.block) = takeReading y.block := by
      rw [takeReading_of_pending h, takeReading_of_pending (by simpa using h)]; rfl
    have step : ∀ y₁ : System Store SensorId Err, y₁.processed = true →
        hostRun env (os.map (fun offered => { vector := driveVector offered false, processNow := true }) ++
          { vector := driveVector p.atTake true, processNow := true } ::
          p.after.map fun r => { vector := driveVector none r, processNow := false })
          { y₁ with block := noByte y.block } =
        .next { y₁ with block := takeReading y.block, log := y₁.log ++ [.take], processed := false } := by
      intro y₁ h₁
      rw [ih (y := { y₁ with block := noByte y.block }) (by simpa using h), if_pos h₁, andThen_next, hn]
    cases hp : y.processed
    · cases hq : sampleReading y.block
      case next r =>
        simp only [Bool.false_eq_true, if_false, processReading, hq, andThen_next]
        exact step { y with
          store := (persist env r y.store).store
          log := y.log ++ (persist env r y.store).actions ++ afterPersistence env r (persist env r y.store).failure
          processed := true } rfl
      all_goals simp [processReading, hq]
    · simp [step y hp]

/-- A reading that is not there is not served. -/
theorem serveReading_of_empty (p : TakePlan) (h : y.block.outValid = false) : serveReading env p y = .next y := by
  simp [serveReading, h]

end

end Sys2Proof.Machine
end

