-- ==== Sys2Proof/Laws/PerInstr.lean ====
section
/-! SUPPORT. One lemma per constructor: the vector an operation is encoded to has the opcode table's fixed bits
(spec/30_encoding.md R61, the mask and match columns). -/

namespace Sys2Proof.Laws.TableRow

/-- The encoded vector carries its row's match under its row's mask. -/
def Statement (i : Instr) : Prop := encode i &&& i.opMask = i.opMatch

theorem reset : Statement .reset := rfl

theorem idle : Statement .idle := rfl

theorem take : Statement .take := rfl

/-- The operand occupies none of the bits of a 0x700 mask. -/
theorem operand_masked (b : Byte) : b.setWidth 11 &&& 0x700#11 = 0#11 := by
  apply BitVec.eq_of_toNat_eq
  have hb := b.isLt
  have : b.toNat &&& 1792 = 0 := by
    apply Nat.eq_of_testBit_eq
    intro i
    rw [Nat.testBit_and, Nat.zero_testBit]
    by_cases h : i < 8
    · interval_cases i <;> simp (decide := true)
    · rw [Nat.testBit_lt_two_pow (lt_of_lt_of_le hb (Nat.pow_le_pow_right (by omega) (by omega : 8 ≤ i)))]
      rfl
  simp [BitVec.toNat_and, Nat.mod_eq_of_lt (show b.toNat < 2048 by omega), this]

theorem feed (b : Byte) : Statement (.feed b) := by
  show (packVector false true false b) &&& 0x700#11 = 0x200#11
  rw [packVector, BitVec.and_or_distrib_right, operand_masked]
  decide

theorem feedTake (b : Byte) : Statement (.feedTake b) := by
  show (packVector false true true b) &&& 0x700#11 = 0x300#11
  rw [packVector, BitVec.and_or_distrib_right, operand_masked]
  decide

end Sys2Proof.Laws.TableRow
end

