-- ==== Sys2Proof/Tests/Slice0.lean ====
section
/-! SUPPORT. Small tests: the expected values are those of spec/95_test_vectors.md (the vector's id stands in each comment)
or of the rule named. After them, one witness for the hypotheses of every statement that has some. -/

namespace Sys2Proof.Tests

set_option Elab.async false

open Sys2Proof Sys2Proof.Machine

/-! ### Helpers -/

/-- The value of an outcome that is a next value. -/
def nextOf {α : Type} : Result α → Option α
  | .next a => some a
  | _ => none

/-- A state with nothing pending: the attempt's bytes, `len` of them. -/
def collecting (bs : List Byte) : State := { State.reset with len := Fin.ofNat 8 bs.length, buf := cellsOf bs }

/-- A state with a pending frame. -/
def pending (bs : List Byte) : State := { State.reset with outValid := true, outFrame := cellsOf bs }

/-- The frame of SRC-2. -/
def goodFrame : List Byte := [0x7E#8, 0x01#8, 0x05#8, 0x10#8, 0x20#8, 0x3E#8, 0x95#8, 0x7E#8]

/-- Its first seven bytes. -/
def sevenBytes : List Byte := [0x7E#8, 0x01#8, 0x05#8, 0x10#8, 0x20#8, 0x3E#8, 0x95#8]

/-- The frame of DE-4, its CRC byte corrupted. -/
def badFrame : List Byte := [0x7E#8, 0x01#8, 0x05#8, 0x10#8, 0x20#8, 0x3E#8, 0x94#8, 0x7E#8]

/-! ### Well-formedness: each check refuses an ill-formed term -/

theorem test_wf_refuses_wide_word : wordWf 0x800 = false := by decide

theorem test_wf_accepts_largest_vector : wordWf 0x7FF = true := by decide

theorem test_wf_refuses_missing_operand : SourceLine.wf { word := .feed, operands := [] } = false := by decide

theorem test_wf_refuses_extra_operand : SourceLine.wf { word := .reset, operands := [1] } = false := by decide

theorem test_wf_refuses_empty_feeds : SourceLine.wf { word := .feeds, operands := [] } = false := by decide

theorem test_wf_refuses_short_frame : SourceLine.wf { word := .frame, operands := [1, 2, 3] } = false := by decide

theorem test_wf_refuses_wide_operand : SourceLine.wf { word := .feedTake, operands := [256] } = false := by decide

theorem test_wf_accepts_framec :
    SourceLine.wf { word := .framec, operands := [1, 5, 16, 32, 62, 255] } = true := by decide

/-! ### Decoding: words written out bit by bit from R60 (rst, in_valid, out_ready, in_data) -/

theorem test_decode_reset : decode 0b1_0_0_00000000#11 = .reset := by decide

theorem test_decode_reset_ignores_the_rest : decode 0b1_1_1_11111111#11 = .reset := by decide

theorem test_decode_idle : decode 0b0_0_0_00000000#11 = .idle := by decide

theorem test_decode_take : decode 0b0_0_1_10100101#11 = .take := by decide

theorem test_decode_feed : decode 0b0_1_0_01111110#11 = .feed 0x7E#8 := by decide

theorem test_decode_feedTake : decode 0b0_1_1_10000001#11 = .feedTake 0x81#8 := by decide

theorem test_decodeTableWord_refuses_wide : decodeTableWord 16 0x8000 = none := by decide

/-- The first step after reset runs the word placed. -/
theorem test_first_step_runs_placed_word :
    nextOf (step (State.reset.withFetchWord 16 0x27E)) = some { collecting [0x7E#8] with resCode := .incomplete } := by
  decide +kernel

/-! ### CRC (section 2.1) -/

/-- CRC-9 and CRC-10. -/
theorem test_crcByte : crcByte 0xFFFF#16 0x7E#8 = 0x7EA9#16 ∧ crcByte 0xF1D1#16 0x05#8 = 0x7E9B#16 := by decide +kernel

/-- CRC-12 and CRC-19. -/
theorem test_crc16 : crc16 [0x01#8, 0x02#8, 0x03#8, 0x04#8] = 0x89C3#16 ∧
    crc16 [0x7E#8, 0x7E#8, 0x7E#8, 0x7E#8] = 0x13E9#16 := by decide +kernel

/-! ### Synchronizer (section 2.2) -/

/-- FS-9: a seven-byte attempt closed by another byte than the sentinel. -/
theorem test_assemble_close_discarded :
    assemble 7 (cellsOf sevenBytes) 0x00#8 = { len := 0, buf := bottomCells, res := .discarded, frame := none } := by
  decide +kernel

/-- FS-12: an interior sentinel is payload. -/
theorem test_assemble_interior_sentinel :
    assemble 5 (cellsOf [0x7E#8, 0x01#8, 0x02#8, 0x03#8, 0x04#8]) 0x7E#8 =
      { len := 6, buf := cellsOf [0x7E#8, 0x01#8, 0x02#8, 0x03#8, 0x04#8, 0x7E#8], res := .incomplete, frame := none } := by
  decide +kernel

/-- FS-17: a stray sentinel gives a spurious frame. -/
theorem test_stream_spurious_frame :
    streamFrames 0 bottomCells (0x7E#8 :: [0x7E#8, 0x02#8, 0x2E#8, 0x10#8, 0x20#8, 0xD3#8, 0x7E#8, 0x7E#8]) =
      [cellsOf [0x7E#8, 0x7E#8, 0x02#8, 0x2E#8, 0x10#8, 0x20#8, 0xD3#8, 0x7E#8]] := by decide +kernel

/-- R150 and OC-3: a byte held over a pending reading is accepted after the take. -/
theorem test_held_byte_waits_for_take :
    holdingRun [(true, false), (true, true), (true, true)] [0x7E#8] (pending goodFrame) =
      ([0x27E#11, 0x37E#11, 0x37E#11], []) := by decide +kernel

/-! ### The operations (section 2.3) -/

/-- OC-7. -/
theorem test_feed_completes :
    nextOf (exec (.feed 0x7E#8) (collecting sevenBytes)) = some { pending goodFrame with resCode := .complete } := by
  decide +kernel

/-- OC-3. -/
theorem test_feed_not_accepted : nextOf (exec (.feed 0x7E#8) (pending goodFrame)) = some (pending goodFrame) := by
  decide +kernel

/-- OC-4. -/
theorem test_feedTake_takes : nextOf (exec (.feedTake 0x7E#8) (pending goodFrame)) = some State.reset := by decide +kernel

/-- OC-5. -/
theorem test_feedTake_accepts :
    nextOf (exec (.feedTake 0x7E#8) State.reset) = some { collecting [0x7E#8] with resCode := .incomplete } := by
  decide +kernel

/-- OC-2. -/
theorem test_take : nextOf (exec .take (pending goodFrame)) = some State.reset := by decide +kernel

/-- OC-6: from the result of an accepted byte, IDLE keeps the attempt and clears `res_code`. -/
theorem test_idle :
    nextOf (exec .idle { collecting [0x7E#8, 0x01#8, 0x05#8] with resCode := .incomplete }) =
      some (collecting [0x7E#8, 0x01#8, 0x05#8]) := by decide +kernel

/-- RS-1 and RS-2. -/
theorem test_reset : nextOf (exec .reset (collecting [0x7E#8, 0x01#8, 0x02#8, 0x03#8, 0x04#8])) = some State.reset ∧
    nextOf (exec .reset (pending goodFrame)) = some State.reset := by decide +kernel

/-! ### Decoder and host (sections 2.4 and 2.5) -/

/-- DE-1 with its bus value. -/
theorem test_outputs_good :
    outCrcAsserted (pending goodFrame) = some 0x3E95#16 ∧ outCrcValid (pending goodFrame) = some true ∧
      outTypeClass (pending goodFrame) = some 0b01#2 ∧
      outFrameBus (pending goodFrame) = some 0x7E010510203E957E#64 := by decide +kernel

/-- DE-4. -/
theorem test_outputs_bad_crc :
    outCrcAsserted (pending badFrame) = some 0x3E94#16 ∧ outCrcComputed (pending badFrame) = some 0x3E95#16 ∧
      outCrcValid (pending badFrame) = some false := by decide +kernel

/-- DE-7: type 0x7E is unknown. -/
theorem test_class_unknown : outTypeClass (pending (List.replicate 8 0x7E#8)) = some 0b00#2 := by decide +kernel

/-- HO-2. -/
theorem test_render : render [0x7E#8, 0x0A#8, 0x0B#8, 0xC0#8, 0xFF#8, 0x14#8, 0x3E#8, 0x7E#8] =
    "7E 0A 0B C0 FF 14 3E 7E" := by decide +kernel

/-- The notation's FRAME of program P5 expands to the bytes the spec lists there. -/
theorem test_frame_expansion : expandLine { word := .frame, operands := [0x09, 0x11, 0x22, 0x33] } =
    some ([0x7E#8, 0x09#8, 0x11#8, 0x22#8, 0x33#8, 0x65#8, 0x50#8, 0x7E#8].map .feed) := by decide +kernel

/-! ### Witnesses: a concrete state and operands that meet each statement's hypotheses -/

theorem witness_StateAfterStepWithRst : InputVector.rst 0x7FF#11 = true := by decide

theorem witness_MachineStartsAfterReset : exec .reset (pending goodFrame) = .next State.reset := rfl

/-- A state that meets the invariant and whose step changes registers. -/
theorem witness_EveryStepKeepsInvariant :
    BlockInv (pushVector 0x27E#11 (collecting sevenBytes)) ∧
      step (pushVector 0x27E#11 (collecting sevenBytes)) = .next (acceptByte 0x7E#8 (collecting sevenBytes)) :=
  ⟨by decide +kernel, rfl⟩

theorem witness_BufferStartStaysSentinel :
    StartIsSentinel (pushVector 0x201#11 (collecting [0x7E#8])) ∧ (collecting [0x7E#8]).len ≠ 0 ∧
      step (pushVector 0x201#11 (collecting [0x7E#8])) = .next (acceptByte 0x01#8 (collecting [0x7E#8])) :=
  ⟨by decide +kernel, by decide +kernel, rfl⟩

theorem witness_DecodeOfEncodeIsIdentity : (Instr.feedTake 0xFF#8).wf = true := by decide

theorem witness_WideWordsAreRefused : 2048 ≤ 2048 := by decide

/-- Both clauses: a queued vector, and a placed word. -/
theorem witness_StepRunsDecodedInstruction :
    (pushVector 0x100#11 State.reset).inputs = .vector 0x100#11 :: [] ∧
      decodeTableWord 16 0x3FF = some (.feedTake 0xFF#8) := by decide

theorem witness_NoEdgeKeepsState : State.reset.inputs = [] := rfl

theorem witness_FirstByteOfAttempt : 0x7F#8 ≠ 0x7E#8 ∧ 0x7E#8 = 0x7E#8 := by decide

/-- The two ends of the range. -/
theorem witness_InteriorByteAppended :
    (1 ≤ (1 : Fin 8).val ∧ (1 : Fin 8).val ≤ 6) ∧ (1 ≤ (6 : Fin 8).val ∧ (6 : Fin 8).val ≤ 6) := by decide

theorem witness_EighthByteOfAttempt : 0x7E#8 = 0x7E#8 ∧ 0x7D#8 ≠ 0x7E#8 := by decide

/-- FEED's vector clause and its three cases: pending, completing, not completing. -/
theorem witness_FeedResult :
    (InputVector.rst 0x2FF#11 = false ∧ InputVector.inValid 0x2FF#11 = true ∧ InputVector.outReady 0x2FF#11 = false) ∧
    (pending goodFrame).outValid = true ∧ (collecting sevenBytes).outValid = false ∧
    (assemble 7 (cellsOf sevenBytes) 0x7E#8).res = .complete ∧
    (assemble 7 (cellsOf sevenBytes) 0x00#8).res ≠ .complete := by decide +kernel

theorem witness_IdleResult :
    InputVector.rst 0x0FF#11 = false ∧ InputVector.inValid 0x0FF#11 = false ∧
      InputVector.outReady 0x0FF#11 = false := by decide

theorem witness_TakeResult :
    (InputVector.rst 0x1FF#11 = false ∧ InputVector.inValid 0x1FF#11 = false ∧ InputVector.outReady 0x1FF#11 = true) ∧
    (BlockInv (pending goodFrame) ∧ (pending goodFrame).outValid = true) ∧ State.reset.outValid = false := by
  decide +kernel

theorem witness_FeedTakeResult :
    (InputVector.rst 0x300#11 = false ∧ InputVector.inValid 0x300#11 = true ∧ InputVector.outReady 0x300#11 = true) ∧
    (pending goodFrame).outValid = true ∧ (collecting sevenBytes).outValid = false := by decide +kernel

/-- Clause by clause: pending (both operations), a stored byte at `len = 6`, a rejected start, a close both ways. -/
theorem witness_FeedAndFeedTakeFrame :
    exec (.feed 0x7E#8) (pending goodFrame) = .next (noByte (pending goodFrame)) ∧
    exec (.feedTake 0x7E#8) (pending goodFrame) = .next (takeReading (pending goodFrame)) ∧
    (exec (.feed 0x95#8) (collecting (sevenBytes.take 6)) = .next (acceptByte 0x95#8 (collecting (sevenBytes.take 6))) ∧
      (collecting (sevenBytes.take 6)).len ≠ 7 ∧ (collecting (sevenBytes.take 6)).outValid = false) ∧
    (exec (.feedTake 0x01#8) State.reset = .next (acceptByte 0x01#8 State.reset) ∧ State.reset.len = 0 ∧
      0x01#8 ≠ 0x7E#8) ∧
    (exec (.feed 0x7E#8) (collecting sevenBytes) = .next (acceptByte 0x7E#8 (collecting sevenBytes)) ∧
      (collecting sevenBytes).len = 7) ∧
    exec (.feed 0x00#8) (collecting sevenBytes) = .next (acceptByte 0x00#8 (collecting sevenBytes)) :=
  ⟨rfl, rfl, ⟨rfl, by decide, by decide⟩, ⟨rfl, by decide, by decide⟩, ⟨rfl, by decide⟩, rfl⟩

/-- A step that accepts, and one that does not. -/
theorem witness_ResultShownExactlyWhenAccepted :
    exec (decode 0x27E#11) State.reset = .next (acceptByte 0x7E#8 State.reset) ∧
    acceptedByte 0x27E#11 State.reset = some 0x7E#8 ∧
    exec (decode 0x27E#11) (pending goodFrame) = .next (noByte (pending goodFrame)) ∧
    acceptedByte 0x27E#11 (pending goodFrame) = none :=
  ⟨rfl, by decide, rfl, by decide⟩

/-- A FEED that is not accepted because a reading is pending. -/
theorem witness_UnacceptedDataIgnored :
    acceptedByte (packVector false true false 0x7E#8) (pending goodFrame) = none := by decide

/-- Three steps that accept nothing while an attempt is open, and two while a reading is pending. -/
theorem witness_NonAcceptingStepsKeepAttempt :
    ((∀ v ∈ [0x000#11, 0x100#11, 0x0FF#11], InputVector.rst v = false) ∧
      runAccepted [0x000#11, 0x100#11, 0x0FF#11] (collecting sevenBytes) = []) ∧
    runAccepted [0x27E#11, 0x37E#11] (pending goodFrame) = [] := by decide +kernel

/-- An accept, a take, and a completion. -/
theorem witness_AcceptAndTakeNeverCoincide :
    (exec (decode 0x37E#11) State.reset = .next (acceptByte 0x7E#8 State.reset) ∧
      (acceptedByte 0x37E#11 State.reset).isSome = true) ∧
    (exec (decode 0x37E#11) (pending goodFrame) = .next (takeReading (pending goodFrame)) ∧
      takesReading 0x37E#11 (pending goodFrame) = true) ∧
    (exec (decode 0x27E#11) (collecting sevenBytes) = .next (acceptByte 0x7E#8 (collecting sevenBytes)) ∧
      (acceptByte 0x7E#8 (collecting sevenBytes)).resCode = .complete) :=
  ⟨⟨rfl, by decide⟩, ⟨rfl, by decide⟩, ⟨rfl, by decide +kernel⟩⟩

theorem witness_OutputsStableUntilTakeOrReset :
    (pending goodFrame).outValid = true ∧ InputVector.rst 0x27E#11 = false ∧
      takesReading 0x27E#11 (pending goodFrame) = false ∧
      exec (decode 0x27E#11) (pending goodFrame) = .next (noByte (pending goodFrame)) :=
  ⟨rfl, by decide, by decide, rfl⟩

/-- An attempt of seven bytes that the stream completes. -/
theorem witness_CompletedFramesAreDelimited :
    (cellsOf sevenBytes)[(0 : Fin 8)] = some 0x7E#8 ∧ cellsOf goodFrame ∈ streamFrames 7 (cellsOf sevenBytes) [0x7E#8] := by
  decide +kernel

/-- From the empty buffer the last result is COMPLETE; from `len = 1` it is not. -/
theorem witness_FrameCapturedExactlyFromEmpty :
    goodFrame = [0x7E#8, 0x01#8, 0x05#8, 0x10#8, 0x20#8, 0x3E#8, 0x95#8, 0x7E#8] ∧
    (streamResults 0 bottomCells goodFrame).getLast? = some .complete ∧
    (streamResults 1 (cellsOf [0x7E#8]) goodFrame).getLast? ≠ some .complete := by decide +kernel

/-- Seven and six bytes other than the sentinel; the frame clause by its two premises. -/
theorem witness_SevenNonSentinelBytesDrain :
    ((List.replicate 7 0x00#8).length = 7 ∧ ∀ b ∈ List.replicate 7 0x00#8, b ≠ 0x7E#8) ∧
    ((List.replicate 6 0xFF#8).length = 6 ∧ ∀ b ∈ List.replicate 6 0xFF#8, b ≠ 0x7E#8) ∧
    (streamResults 0 bottomCells [0x01#8, 0x02#8] = List.replicate 2 .discarded) := by decide +kernel

/-- Gaps of 5 and of 6 bytes, two frames each, after a stream that starts inside a frame (FS-18 and FS-20). -/
theorem witness_ShortGapsNeverSynchronize :
    (∀ b ∈ [0x10#8, 0x20#8, 0x3E#8, 0x95#8], b ≠ 0x7E#8) ∧
    (∀ G ∈ [5, 6], ∀ p ∈ List.replicate 2 (List.replicate G 0x00#8, [0x01#8, 0x05#8, 0x10#8, 0x20#8, 0x3E#8, 0x95#8]),
      p.1.length = G ∧ (∀ b ∈ p.1, b ≠ 0x7E#8) ∧ p.2.length = 6 ∧ ∀ b ∈ p.2, b ≠ 0x7E#8) := by decide +kernel

/-- A stream that ends on a COMPLETE, its window being the last eight bytes (R110: `7E … 7E 7E … 7E` is two frames). -/
theorem witness_EachFrameNeedsEightBytes :
    (streamResults 0 bottomCells (goodFrame ++ badFrame)).getLast? = some .complete ∧
      (streamFrames 0 bottomCells (goodFrame ++ badFrame)).length = 2 := by decide +kernel

theorem witness_OneResultPerAcceptedByte :
    acceptedByte 0x100#11 State.reset = none ∧ exec (decode 0x100#11) State.reset = .next (takeReading State.reset) :=
  ⟨by decide, rfl⟩

/-- A reading pending while the transport holds two bytes: it waits, it is taken, the bytes go one after the other. -/
theorem witness_HeldBytesAreNeverLost :
    BlockInv (pending goodFrame) ∧ Represents (pending goodFrame) [] ∧
    holdingRun [(true, false), (true, true), (true, true), (false, false), (true, true)] [0x7E#8, 0x01#8]
      (pending goodFrame) = ([0x27E#11, 0x37E#11, 0x37E#11, 0x001#11, 0x301#11], []) := by
  refine ⟨by decide +kernel, ⟨rfl, by decide +kernel⟩, by decide +kernel⟩

/-- An open attempt stands for the bytes of its cells. -/
theorem witness_RunShowsSourceResults :
    BlockInv (collecting sevenBytes) ∧ Represents (collecting sevenBytes) sevenBytes ∧
      ∀ v ∈ [0x27E#11, 0x100#11], InputVector.rst v = false := by
  refine ⟨by decide +kernel, ⟨by decide, by decide +kernel⟩, by decide⟩

/-- The hypotheses of SampledReadingIsSourceDecode, FieldOutputs, CrcOutputs and FrameBusPacking. -/
theorem witness_held_frame :
    (pending goodFrame).outValid = true ∧
      (pending goodFrame).outFrame = cellsOf [0x7E#8, 0x01#8, 0x05#8, 0x10#8, 0x20#8, 0x3E#8, 0x95#8, 0x7E#8] :=
  ⟨rfl, rfl⟩

/-- DE-1 and DE-4. -/
theorem witness_CorruptedCrcBytesDetected :
    outCrcValid (pending goodFrame) = some true ∧ (0x3E#8 ≠ 0x3E#8 ∨ 0x94#8 ≠ 0x95#8) ∧
      (pending badFrame).outFrame = cellsOf [0x7E#8, 0x01#8, 0x05#8, 0x10#8, 0x20#8, 0x3E#8, 0x94#8, 0x7E#8] := by
  decide +kernel

theorem witness_TypeClassOutput : outType (pending goodFrame) = some 0x01#8 := by decide +kernel

theorem witness_EveryCompletedFramePresented :
    BlockInv (collecting sevenBytes) ∧ (collecting sevenBytes).outValid = false ∧ (collecting sevenBytes).len = 7 := by
  decide +kernel

theorem witness_ReadingBottomOutputFaults : State.reset.outValid = false := rfl

theorem witness_RenderedFrameForm : goodFrame.length = 8 ∧ goodFrame[7]? = some 0x7E#8 := by decide

/-! ### Witnesses for the host's statements -/

/-- The sensor a small store holds for a device. -/
def known (store : List (Byte × Nat)) (d : Byte) : Option Nat := (store.find? (·.1 == d)).map (·.2)

/-- A small persistence collaborator that remembers the sensors it created. -/
def testEnv : HostEnv (List (Byte × Nat)) Nat String where
  describeType := TypeLabel.text
  findSensorByDeviceId d st := (.ok (known st d), st)
  createSensor d _ _ st := (.ok st.length, (d, st.length) :: st)
  recordReading _ _ _ _ _ st := (.ok (), st)
  eventAfterFailure := false

/-- A collaborator that fails in the lookup on an empty store, in the create on a store of one entry, and in the record on
any larger one: on two entries after a create, on more for a sensor found. -/
def failingEnv : HostEnv (List (Byte × Nat)) Nat String where
  describeType := TypeLabel.text
  findSensorByDeviceId _ st :=
    match st with
    | [] => (.error "lost", st)
    | [_] => (.ok none, st)
    | [_, _] => (.ok none, st)
    | _ => (.ok (some 0), st)
  createSensor _ _ _ st :=
    match st with
    | [_] => (.error "refused", st)
    | _ => (.ok 0, st)
  recordReading _ _ _ _ _ st := (.error "lost", st)
  eventAfterFailure := true

/-- What the host reads from the good frame (SRC-2). -/
def goodReading : DecodedReading :=
  { dispId := 0x05#8, type := 0x01#8, typeLabel := .temperature, query := 0x10#8, data := 0x20#8, crcValid := true,
    rawFrame := "7E 01 05 10 20 3E 95 7E" }

/-- SRC-2: the end-to-end reading. -/
theorem test_sampled_reading : nextOf (sampleReading (pending goodFrame)) = some goodReading := by decide +kernel

/-- An outcome is known by its next value. -/
theorem next_of_nextOf {α : Type} {o : Result α} {a : α} (h : nextOf o = some a) : o = .next a := by
  cases o <;> simp_all [nextOf]

theorem testEnv_remembers : testEnv.Remembers known where
  find _ _ := rfl
  find_keeps _ _ := rfl
  create d t txt st := ⟨st.length, rfl, by simp [testEnv, known]⟩
  create_keeps d t txt st d' h := by simp [testEnv, known, Ne.symm h]
  record _ _ _ _ _ _ := rfl
  record_keeps _ _ _ _ _ _ := rfl

/-- Block and host with nothing done yet. -/
def fresh (block : State) : System (List (Byte × Nat)) Nat String :=
  { block, store := [], log := [], processed := false }

/-- A take that waits two cycles and is FEED_TAKE, `out_ready` staying for one more cycle. -/
def heldTake : TakePlan := { delay := [some 0x7E#8, none], atTake := some 0x7E#8, after := [true, false] }

/-- The take is TAKE, at once. -/
def plainTake : TakePlan := { delay := [], atTake := none, after := [] }

/-- R151 with the form R150 forces when the transport holds a byte: its vectors, and the reading served once. -/
theorem test_serve_by_feedTake :
    heldTake.cycles.map HostCycle.vector = [0x27E#11, 0x000#11, 0x37E#11, 0x100#11, 0x000#11] ∧
    (nextOf (serveReading testEnv heldTake (fresh (pending goodFrame)))).map System.log =
      some [.find 0x05#8, .create 0x05#8 0x01#8 "temperature",
        .record 0 0x10#8 0x20#8 true "7E 01 05 10 20 3E 95 7E", .event 0x05#8 .temperature 0x20#8 true, .take] := by
  decide +kernel

/-- R161 and R190: a reset drops a pending reading that the host has not sampled. -/
theorem test_reset_drops_pending_reading :
    nextOf (hostCycle testEnv { vector := 0x400#11, processNow := false } (fresh (pending goodFrame))) =
      some (fresh State.reset) := by decide +kernel

theorem witness_NoActionWithoutCompletion :
    serveReading testEnv plainTake (fresh State.reset) = .next (fresh State.reset) ∧
    (assemble State.reset.len State.reset.buf 0x7E#8).res ≠ .complete ∧
    onByte testEnv { pending := plainTake, ready := true, completed := heldTake } 0x7E#8 (fresh State.reset) =
      .next (fresh (acceptByte 0x7E#8 State.reset)) ∧
    (fresh State.reset).block.outValid = false := by
  refine ⟨rfl, by decide +kernel, next_of_nextOf (by decide +kernel), rfl⟩

/-- A pending reading, taken by TAKE and by FEED_TAKE, not yet processed and processed. -/
theorem witness_HostAlwaysTakesReading :
    BlockInv (fresh (pending goodFrame)).block ∧ takesReading 0x100#11 (pending goodFrame) = true ∧
      takesReading 0x37E#11 (pending goodFrame) = true ∧ (fresh (pending goodFrame)).processed = false ∧
      ({ fresh (pending goodFrame) with processed := true }).processed = true := by decide +kernel

/-- A known sensor, and an absent one. -/
theorem witness_ServingOrder :
    (pending goodFrame).outValid = true ∧ (fresh (pending goodFrame)).processed = false ∧
    sampleReading (pending goodFrame) = .next goodReading ∧
    (testEnv.recordReading 0 0x10#8 0x20#8 true "7E 01 05 10 20 3E 95 7E" [(0x05#8, 0)] = (.ok (), [(0x05#8, 0)])) ∧
    (testEnv.findSensorByDeviceId 0x05#8 [(0x05#8, 0)] = (.ok (some 0), [(0x05#8, 0)])) ∧
    (testEnv.findSensorByDeviceId 0x05#8 [] = (.ok none, [])) ∧
    (testEnv.createSensor 0x05#8 0x01#8 "temperature" [] = (.ok 0, [(0x05#8, 0)])) :=
  ⟨rfl, rfl, next_of_nextOf test_sampled_reading, rfl, rfl, rfl, rfl⟩

/-- Stores of zero to three entries: the four places where a call can fail, in the statement's order. -/
def storeOf (n : Nat) : List (Byte × Nat) := List.replicate n (0x00#8, 0)

/-- The four places where a call can fail, for one reading and four stores. -/
theorem witness_PersistenceFailureReported :
    (pending goodFrame).outValid = true ∧ (fresh (pending goodFrame)).processed = false ∧
    sampleReading (pending goodFrame) = .next goodReading ∧
    (failingEnv.findSensorByDeviceId goodReading.dispId (storeOf 0) = (.error "lost", storeOf 0)) ∧
    (failingEnv.findSensorByDeviceId goodReading.dispId (storeOf 1) = (.ok none, storeOf 1) ∧
      failingEnv.createSensor goodReading.dispId goodReading.type (failingEnv.describeType goodReading.typeLabel)
        (storeOf 1) = (.error "refused", storeOf 1)) ∧
    (failingEnv.findSensorByDeviceId goodReading.dispId (storeOf 2) = (.ok none, storeOf 2) ∧
      failingEnv.createSensor goodReading.dispId goodReading.type (failingEnv.describeType goodReading.typeLabel)
        (storeOf 2) = (.ok 0, storeOf 2) ∧
      failingEnv.recordReading 0 goodReading.query goodReading.data goodReading.crcValid goodReading.rawFrame
        (storeOf 2) = (.error "lost", storeOf 2)) ∧
    (failingEnv.findSensorByDeviceId goodReading.dispId (storeOf 3) = (.ok (some 0), storeOf 3) ∧
      failingEnv.recordReading 0 goodReading.query goodReading.data goodReading.crcValid goodReading.rawFrame
        (storeOf 3) = (.error "lost", storeOf 3)) :=
  ⟨rfl, rfl, next_of_nextOf test_sampled_reading, rfl, ⟨rfl, rfl⟩, ⟨rfl, rfl, rfl⟩, ⟨rfl, rfl⟩⟩

theorem witness_SameFrameTwiceOneSensorTwoReadings :
    testEnv.Remembers known ∧ State.reset.len = 0 ∧ State.reset.outValid = false ∧ known [] 0x05#8 = none ∧
    ((goodFrame ++ goodFrame).map fun b =>
      (({ pending := plainTake, ready := true, completed := heldTake } : BytePlan), b)).map Prod.snd =
      goodFrame ++ goodFrame :=
  ⟨testEnv_remembers, rfl, rfl, rfl, rfl⟩

theorem witness_PseudoInstructionExpansion : [0x7E#8] ≠ [] := by decide

theorem witness_FrameWithOwnCrcIsValid : State.reset.len = 0 ∧ State.reset.outValid = false := ⟨rfl, rfl⟩

end Sys2Proof.Tests
end

section
/-! PROOFS. Scope: a step runs the decoded operation (R12), the registers of a run show the results of the source's
`feedByte`, and the host samples the source's decoded reading (R3). -/

namespace Sys2Proof.Machine

/-! ### A step on a driven edge -/

/-- An edge with one driver runs the operation of its vector and leaves the queue. -/
theorem step_of_vector {s : State} {v : InputVector} {rest : List Edge} (h : s.inputs = .vector v :: rest) :
    step s = exec (decode v) { s with inputs := rest } := by
  simp [step, nextEdge, dropEdge, h]

@[simp] theorem step_pushVector (v : InputVector) (s : State) : step (pushVector v s) = exec (decode v) s :=
  step_of_vector rfl

/-- A number that decodes does so to the operation of the vector it writes. -/
theorem decode_of_decodeTableWord {nbits w : Nat} {i : Instr} (h : decodeTableWord nbits w = some i) :
    decode (BitVec.ofNat 11 (w % 2 ^ nbits)) = i := by
  by_cases hw : wordWf (w % 2 ^ nbits)
  · simpa [decodeTableWord, decodeWord, hw] using h
  · simp [decodeTableWord, decodeWord, hw] at h

/-- Settles O14: the queued vector by `step_of_vector`, the placed word by `step_pushVector`. -/
theorem stepRunsDecodedInstruction : Obligations.StepRunsDecodedInstruction := by
  refine ⟨fun s v rest h => step_of_vector h, fun s nbits w i h => ?_⟩
  rw [State.withFetchWord, step_pushVector, decode_of_decodeTableWord h]

/-! ### Steps that accept a byte, and steps that do not (R101) -/

theorem decode_eq_reset_iff {v : InputVector} : decode v = .reset ↔ InputVector.rst v = true := by
  cases hr : InputVector.rst v
  · cases hv : InputVector.inValid v <;> cases ho : InputVector.outReady v <;> simp [decode, hr, hv, ho]
  · simp [decode, hr]

/-- The decoded operation carries a byte exactly from a vector that offers it without a reset. -/
theorem operand_decode_eq_some_iff {v : InputVector} {b : Byte} :
    (decode v).operand = some b ↔
      InputVector.rst v = false ∧ InputVector.inValid v = true ∧ InputVector.inData v = b := by
  cases hr : InputVector.rst v
  · cases hv : InputVector.inValid v <;> cases ho : InputVector.outReady v <;> simp [decode, Instr.operand, hr, hv, ho]
  · simp [decode, Instr.operand, hr]

/-- A byte is accepted exactly when the decoded operation carries it and nothing is pending. -/
theorem acceptedByte_eq_some_iff {v : InputVector} {s : State} {b : Byte} :
    acceptedByte v s = some b ↔ (decode v).operand = some b ∧ s.outValid = false := by
  rw [operand_decode_eq_some_iff]
  simp [acceptedByte, inReady, and_assoc, and_left_comm, and_comm]

/-- Every operation has a next state (R170). -/
theorem exec_next (i : Instr) (s : State) : ∃ t, exec i s = .next t := by
  cases i <;> exact ⟨_, rfl⟩

/-- An operation that carries a byte runs the transaction on it while nothing is pending, whether FEED or FEED_TAKE. -/
theorem exec_of_acceptedByte {v : InputVector} {s : State} {b : Byte} (h : acceptedByte v s = some b) :
    exec (decode v) s = .next (acceptByte b s) := by
  obtain ⟨hop, hempty⟩ := acceptedByte_eq_some_iff.mp h
  generalize decode v = i at hop
  cases i with
  | reset => cases hop
  | idle => cases hop
  | take => cases hop
  | feed c => cases hop; rw [exec_feed, offerByte_of_ready hempty]
  | feedTake c => cases hop; exact exec_feedTake_of_empty hempty

/-- A step without a reset that accepts no byte keeps the attempt and shows NONE. -/
theorem exec_of_noAcceptedByte {v : InputVector} {s t : State} (hrst : InputVector.rst v = false)
    (hacc : acceptedByte v s = none) (h : exec (decode v) s = .next t) :
    t.len = s.len ∧ t.buf = s.buf ∧ t.resCode = .none := by
  rcases exec_cases h with ⟨hi, -⟩ | rfl | ⟨-, -, rfl⟩ | ⟨hempty, b, hi, -⟩
  · simp [decode_eq_reset_iff, hrst] at hi
  · exact ⟨rfl, rfl, rfl⟩
  · exact ⟨rfl, rfl, rfl⟩
  · have hop : (decode v).operand = some b := by rcases hi with hi | hi <;> rw [hi] <;> rfl
    rw [acceptedByte_eq_some_iff.mpr ⟨hop, hempty⟩] at hacc
    cases hacc

/-! ### The source's `feedByte`, case by case (R103 to R107) -/

theorem feedByte_nil_of_ne {b : Byte} (h : b ≠ Config.sentinel) : feedByte [] b = ([], .discarded) := by
  simp [feedByte, h]

theorem feedByte_nil_sentinel : feedByte [] Config.sentinel = ([Config.sentinel], .incomplete) := by
  simp [feedByte]

/-- A byte on an open attempt is appended; the eighth one closes it. -/
theorem feedByte_of_ne_nil {buffer : List Byte} (b : Byte) (hne : buffer ≠ []) :
    feedByte buffer b =
      if buffer.length + 1 < 8 then (buffer ++ [b], .incomplete)
      else if b = Config.sentinel then ([], .complete (buffer ++ [b]))
      else ([], .discarded) := by
  cases buffer with
  | nil => exact absurd rfl hne
  | cons x xs => simp [feedByte, Config.frameLen]

theorem feedByte_append {buffer : List Byte} (b : Byte) (hne : buffer ≠ []) (h : buffer.length + 1 < 8) :
    feedByte buffer b = (buffer ++ [b], .incomplete) := by
  rw [feedByte_of_ne_nil b hne, if_pos h]

theorem feedByte_close_sentinel {buffer : List Byte} (h : buffer.length = 7) :
    feedByte buffer Config.sentinel = ([], .complete (buffer ++ [Config.sentinel])) := by
  rw [feedByte_of_ne_nil _ (List.ne_nil_of_length_eq_add_one h), h, if_neg (by decide), if_pos rfl]

theorem feedByte_close_of_ne {buffer : List Byte} {b : Byte} (h : buffer.length = 7) (hb : b ≠ Config.sentinel) :
    feedByte buffer b = ([], .discarded) := by
  rw [feedByte_of_ne_nil _ (List.ne_nil_of_length_eq_add_one h), h, if_neg (by decide), if_neg hb]

/-! ### Cells that hold a list of bytes -/

@[simp] theorem cellsOf_nil : cellsOf [] = bottomCells := by
  ext i h
  simp [cellsOf]

/-- Writing the cell after the last byte appends the byte. -/
theorem memWrite_cellsOf {bs : List Byte} {i : Fin 8} (b : Byte) (h : i.val = bs.length) :
    memWrite (cellsOf bs) i b = cellsOf (bs ++ [b]) := by
  apply Vector.ext
  intro n hn
  simp only [memWrite_get, cellsOf, Vector.getElem_ofFn, h]
  rcases lt_trichotomy n bs.length with hlt | rfl | hgt
  · simp [hlt.ne', List.getElem?_append_left hlt]
  · simp
  · simp [hgt.ne, List.getElem?_eq_none, hgt.le, Nat.succ_le_of_lt hgt]

/-- Eight cells that hold eight bytes give back those bytes. -/
theorem allBytes_cellsOf {bs : List Byte} (h : bs.length = 8) : allBytes (cellsOf bs).toList = some bs := by
  have hcells : (cellsOf bs).toList = bs.map some := by
    apply List.ext_getElem
    · simp [h]
    · intro n _ _
      simp [cellsOf]
  rw [hcells, allBytes_map_some]

/-! ### The block's registers against the source's buffer -/

/-- The registers stand for a buffer exactly when `len` counts its bytes and the cells hold them. -/
theorem represents_iff {s : State} {buffer : List Byte} :
    Represents s buffer ↔ s.len.val = buffer.length ∧ s.buf = cellsOf buffer := by
  refine and_congr_right fun _ => ⟨fun h => ?_, fun h i => by rw [h, cellsOf_get]⟩
  apply Vector.ext
  intro n hn
  simpa [cellsOf] using h ⟨n, hn⟩

theorem represents_reset : Represents State.reset [] :=
  represents_iff.mpr ⟨rfl, cellsOf_nil.symm⟩

/-- The attempt's registers alone stand for the buffer. -/
theorem Represents.of_attempt_eq {s t : State} {buffer : List Byte} (hr : Represents s buffer) (hlen : t.len = s.len)
    (hbuf : t.buf = s.buf) : Represents t buffer := by
  rw [represents_iff] at hr ⊢
  rwa [hlen, hbuf]

theorem Represents.eq_nil {s : State} {buffer : List Byte} (hr : Represents s buffer) (h : s.len = 0) : buffer = [] :=
  List.eq_nil_of_length_eq_zero (hr.1.symm.trans (congrArg Fin.val h))

theorem Represents.length_eq_seven {s : State} {buffer : List Byte} (hr : Represents s buffer) (h : s.len = 7) :
    buffer.length = 7 :=
  hr.1.symm.trans (congrArg Fin.val h)

/-- What the registers show after an accepted byte: the source's result on its buffer, and the source's new buffer. -/
theorem acceptByte_refines_feedByte {s : State} {buffer : List Byte} (b : Byte) (hr : Represents s buffer) :
    Represents (acceptByte b s) (feedByte buffer b).1 ∧
      shownResult ((acceptByte b s).resCode, (acceptByte b s).outFrame) = some (feedByte buffer b).2 := by
  obtain ⟨hlen, hbuf⟩ := represents_iff.mp hr
  rcases acceptByte_cases b s with ⟨h0, hb, e⟩ | ⟨h0, rfl, e⟩ | ⟨n, h0, hn, e⟩ | ⟨h7, rfl, e⟩ | ⟨h7, hb, e⟩ <;> rw [e]
  · obtain rfl := hr.eq_nil h0
    rw [feedByte_nil_of_ne hb]
    exact ⟨hr.of_attempt_eq rfl rfl, rfl⟩
  · obtain rfl := hr.eq_nil h0
    rw [feedByte_nil_sentinel, hbuf, memWrite_cellsOf _ rfl]
    exact ⟨represents_iff.mpr ⟨rfl, rfl⟩, rfl⟩
  · have hne : buffer ≠ [] := by
      rintro rfl
      exact h0 (Fin.ext hlen)
    rw [feedByte_append b hne (by omega), hbuf, memWrite_cellsOf b hlen]
    exact ⟨represents_iff.mpr ⟨by simp [hn, hlen], rfl⟩, rfl⟩
  · have hseven := hr.length_eq_seven h7
    rw [feedByte_close_sentinel hseven, hbuf, memWrite_cellsOf _ hseven.symm]
    refine ⟨represents_iff.mpr ⟨rfl, cellsOf_nil.symm⟩, ?_⟩
    simp [shownResult, allBytes_cellsOf, hseven]
  · have hseven := hr.length_eq_seven h7
    rw [feedByte_close_of_ne hseven hb]
    exact ⟨represents_iff.mpr ⟨rfl, cellsOf_nil.symm⟩, rfl⟩

/-- A run without a reset shows the source's results on the bytes accepted, from any state that stands for the source's
buffer. -/
theorem runShown_refines_feedBytes (vs : List InputVector) {s : State} {buffer : List Byte} (hr : Represents s buffer)
    (hrst : ∀ v ∈ vs, InputVector.rst v = false) :
    (runShown vs s).filterMap shownResult = feedBytes buffer (runAccepted vs s) := by
  induction vs generalizing s buffer with
  | nil => rfl
  | cons v vs ih =>
    obtain ⟨hv, hvs⟩ := List.forall_mem_cons.mp hrst
    cases hacc : acceptedByte v s with
    | some b =>
      obtain ⟨hnext, hres⟩ := acceptByte_refines_feedByte b hr
      simp [runShown, runAccepted, exec_of_acceptedByte hacc, hacc, hres, feedBytes, ih hnext hvs]
    | none =>
      obtain ⟨t, ht⟩ := exec_next (decode v) s
      obtain ⟨hlen, hbuf, hres⟩ := exec_of_noAcceptedByte hv hacc ht
      have hshown : shownResult (t.resCode, t.outFrame) = none := by rw [hres]; rfl
      simp [runShown, runAccepted, ht, hacc, hshown, ih (hr.of_attempt_eq hlen hbuf) hvs]

/-- Settles O38, by induction on the vectors: each accepted byte is one `feedByte`, every other step shows nothing. -/
theorem runShowsSourceResults : Obligations.RunShowsSourceResults :=
  ⟨fun vs _ _ _ hr hrst => runShown_refines_feedBytes vs hr hrst, represents_reset⟩

/-! ### The bus of a held frame (R45) -/

/-- One byte shifted into the bus from below. -/
def shiftIn (acc : BitVec 64) (b : Byte) : BitVec 64 := (acc <<< 8) ||| b.setWidth 64

theorem packBytes_eq_foldl (bs : List Byte) : packBytes bs = bs.foldl shiftIn 0 := rfl

/-- The byte shifted in last is the lowest one. -/
theorem extractLsb'_zero_shiftIn (acc : BitVec 64) (b : Byte) : (shiftIn acc b).extractLsb' 0 8 = b := by
  ext j hj
  have h64 : j < 64 := by omega
  simp [shiftIn, hj, h64]

/-- Shifting a byte in moves the others up by one place. -/
theorem extractLsb'_shiftIn (acc : BitVec 64) (b : Byte) (k : Nat) (hk : k + 16 ≤ 64) :
    (shiftIn acc b).extractLsb' (k + 8) 8 = acc.extractLsb' k 8 := by
  ext j hj
  have hin : k + 8 + j < 64 := by omega
  have hnew : ¬ k + 8 + j < 8 := by omega
  have hshift : k + 8 + j - 8 = k + j := by omega
  have hbyte : b.getLsbD (k + 8 + j) = false := BitVec.getLsbD_of_ge b _ (by omega)
  have hold : acc.getLsbD (k + j) = acc[k + j] := BitVec.getLsbD_eq_getElem (by omega)
  simp [shiftIn, hin, hnew, hshift, hbyte, hold]

/-- Packing eight bytes on the bus and reading them back in frame order is the identity. -/
theorem busBytes_packBytes (f₀ f₁ f₂ f₃ f₄ f₅ f₆ f₇ : Byte) :
    busBytes (packBytes [f₀, f₁, f₂, f₃, f₄, f₅, f₆, f₇]) = [f₀, f₁, f₂, f₃, f₄, f₅, f₆, f₇] := by
  simp [busBytes, busByte, packBytes_eq_foldl, List.finRange_succ, extractLsb'_shiftIn, extractLsb'_zero_shiftIn]

/-! ### The decoder's outputs while a frame is held (R131 to R135) -/

section HeldFrame
variable {s : State} {f₀ f₁ f₂ f₃ f₄ f₅ f₆ f₇ : Byte} (hv : s.outValid = true)
  (hf : s.outFrame = cellsOf [f₀, f₁, f₂, f₃, f₄, f₅, f₆, f₇])
include hv hf

theorem outType_of_held : outType s = some f₁ := by
  rw [outType, whileValid_of_valid _ hv, hf]; rfl

theorem outDispid_of_held : outDispid s = some f₂ := by
  rw [outDispid, whileValid_of_valid _ hv, hf]; rfl

theorem outQuery_of_held : outQuery s = some f₃ := by
  rw [outQuery, whileValid_of_valid _ hv, hf]; rfl

theorem outData_of_held : outData s = some f₄ := by
  rw [outData, whileValid_of_valid _ hv, hf]; rfl

theorem outCrcAsserted_of_held : outCrcAsserted s = some (bigEndian16 f₅ f₆) := by
  rw [outCrcAsserted, whileValid_of_valid _ hv, hf]; rfl

theorem outCrcComputed_of_held : outCrcComputed s = some (crc16 [f₁, f₂, f₃, f₄]) := by
  rw [outCrcComputed, whileValid_of_valid _ hv, hf]; rfl

theorem outCrcValid_of_held : outCrcValid s = some (bigEndian16 f₅ f₆ == crc16 [f₁, f₂, f₃, f₄]) := by
  rw [outCrcValid, outCrcAsserted_of_held hv hf, outCrcComputed_of_held hv hf]; rfl

theorem outTypeClass_of_held : outTypeClass s = some (typeClass f₁) := by
  rw [outTypeClass, outType_of_held hv hf]; rfl

theorem outFrameBus_of_held : outFrameBus s = some (packBytes [f₀, f₁, f₂, f₃, f₄, f₅, f₆, f₇]) := by
  rw [outFrameBus, whileValid_of_valid _ hv, hf, frameBus, allBytes_cellsOf rfl]; rfl

end HeldFrame

/-! ### What the host samples -/

@[simp] theorem hostRead_some {α : Type} (signal : OutSignal) (a : α) : hostRead signal (some a) = .next a := rfl

/-- The host's label of a type code's class is the source's label of the code; the class is never the refused 0b11. -/
theorem label_typeClass (t : Byte) : label (typeClass t) = .next (sourceLabel t) := by
  unfold typeClass sourceLabel
  split
  · rfl
  · split <;> rfl

/-- Settles O39: every output the host reads is defined, and holds what the source's `decode` computes. -/
theorem sampledReadingIsSourceDecode : Obligations.SampledReadingIsSourceDecode := by
  intro s f₀ f₁ f₂ f₃ f₄ f₅ f₆ f₇ hv hf
  simp only [sampleReading, outDispid_of_held hv hf, outType_of_held hv hf, outTypeClass_of_held hv hf,
    outQuery_of_held hv hf, outData_of_held hv hf, outCrcValid_of_held hv hf, outFrameBus_of_held hv hf,
    hostRead_some, andThen_next, label_typeClass, busBytes_packBytes, sourceDecode]

end Sys2Proof.Machine
end

section
/-! PROOFS. State: the registers and outputs a reset leaves (R32), the sentinel kept in cell 0 (R23), and what `res_code`
reports (R25). -/

namespace Sys2Proof.Machine

/-! ### The state after a reset (R32) -/

@[simp] theorem memRead_resetRegisters (i : Fin 8) (s : State) : memRead i (resetRegisters s) = none := by
  simp [memRead]

section NothingPending
variable {s : State} (hv : s.outValid = false)
include hv

theorem inReady_of_empty : inReady s = true := by simp [inReady, hv]

theorem outFrameBus_of_empty : outFrameBus s = none := whileValid_of_empty _ hv

theorem outType_of_empty : outType s = none := whileValid_of_empty _ hv

theorem outDispid_of_empty : outDispid s = none := whileValid_of_empty _ hv

theorem outQuery_of_empty : outQuery s = none := whileValid_of_empty _ hv

theorem outData_of_empty : outData s = none := whileValid_of_empty _ hv

theorem outCrcAsserted_of_empty : outCrcAsserted s = none := whileValid_of_empty _ hv

theorem outCrcComputed_of_empty : outCrcComputed s = none := whileValid_of_empty _ hv

theorem outCrcValid_of_empty : outCrcValid s = none := by rw [outCrcValid, outCrcAsserted_of_empty hv]

theorem outTypeClass_of_empty : outTypeClass s = none := by rw [outTypeClass, outType_of_empty hv]; rfl

end NothingPending

/-- A driven edge with `rst = 1` leaves the queue and resets the registers, whatever its other bits. -/
theorem step_of_rst {s : State} {v : InputVector} {rest : List Edge} (h : s.inputs = .vector v :: rest)
    (hrst : InputVector.rst v = true) : step s = .next (resetRegisters { s with inputs := rest }) := by
  rw [step_of_vector h, decode_eq_reset_iff.mpr hrst, exec_reset]

/-- Settles O2: the edge is a RESET, which clears `out_valid`, and with nothing pending every output is ⊥. -/
theorem stateAfterStepWithRst : Obligations.StateAfterStepWithRst := by
  intro s v rest hrst
  have hv : (resetRegisters { s with inputs := rest }).outValid = false := rfl
  exact ⟨_, step_of_rst rfl hrst, rfl, fun i => memRead_resetRegisters i _, hv,
    fun i => bottomCells_get i.val i.isLt, rfl, rfl, inReady_of_empty hv,
    outFrameBus_of_empty hv, outType_of_empty hv, outDispid_of_empty hv, outQuery_of_empty hv, outData_of_empty hv,
    outCrcAsserted_of_empty hv, outCrcComputed_of_empty hv, outCrcValid_of_empty hv, outTypeClass_of_empty hv⟩

/-! ### The sentinel in cell 0 (R23) -/

/-- The sentinel in cell 0 depends on the attempt's registers only. -/
theorem startIsSentinel_of_attempt_eq {s t : State} (hs : StartIsSentinel s) (hlen : t.len = s.len)
    (hbuf : t.buf = s.buf) : StartIsSentinel t := by
  rw [StartIsSentinel, hlen, hbuf]
  exact hs

theorem startIsSentinel_of_len_zero {s : State} (h : s.len = 0) : StartIsSentinel s :=
  fun hne => absurd h hne

/-- An accepted byte keeps the sentinel: only a sentinel is stored in cell 0 (R103, R104), and the bytes after it go to
other cells (R105). -/
theorem acceptByte_startIsSentinel {s : State} (b : Byte) (hs : StartIsSentinel s) :
    StartIsSentinel (acceptByte b s) := by
  rcases acceptByte_cases b s with ⟨-, -, e⟩ | ⟨-, hb, e⟩ | ⟨n, h0, -, e⟩ | ⟨-, -, e⟩ | ⟨-, -, e⟩ <;> rw [e]
  · exact startIsSentinel_of_attempt_eq hs rfl rfl
  · intro _
    simp [hb]
  · intro _
    exact (memWrite_get_other s.buf b h0).trans (hs h0)
  · exact startIsSentinel_of_len_zero rfl
  · exact startIsSentinel_of_len_zero rfl

/-- Every operation keeps the sentinel: RESET empties the attempt, and only an accepted byte writes it. -/
theorem exec_startIsSentinel {i : Instr} {s t : State} (hs : StartIsSentinel s) (h : exec i s = .next t) :
    StartIsSentinel t := by
  rcases exec_cases h with ⟨-, rfl⟩ | rfl | ⟨-, -, rfl⟩ | ⟨-, b, -, rfl⟩
  · exact startIsSentinel_of_len_zero rfl
  · exact startIsSentinel_of_attempt_eq hs rfl rfl
  · exact startIsSentinel_of_attempt_eq hs rfl rfl
  · exact acceptByte_startIsSentinel b hs

/-- Settles O6: with no edge the state is kept, and on a driven edge the operation keeps the sentinel. -/
theorem bufferStartStaysSentinel : Obligations.BufferStartStaysSentinel := by
  intro s t hs h
  rcases step_cases h with ⟨-, rfl⟩ | ⟨v, rest, -, hexec⟩
  · exact hs
  · refine exec_startIsSentinel ?_ hexec
    exact startIsSentinel_of_attempt_eq hs rfl rfl

/-! ### What `res_code` reports (R25) -/

/-- The transaction never answers NONE. -/
theorem assemble_res_ne_none (len : Fin 8) (buf : Cells) (b : Byte) : (assemble len buf b).res ≠ .none := by
  rcases assemble_cases len buf b with ⟨-, -, e⟩ | ⟨-, -, e⟩ | ⟨n, -, -, e⟩ | ⟨-, -, e⟩ | ⟨-, -, e⟩ <;> simp [e]

/-- `res_code` shows the transaction's result, whether or not the byte completes a frame. -/
theorem acceptByte_resCode (b : Byte) (s : State) : (acceptByte b s).resCode = (assemble s.len s.buf b).res := by
  cases hf : (assemble s.len s.buf b).frame with
  | none => rw [acceptByte_of_noFrame hf, State.setRes_resCode]
  | some f => rw [acceptByte_of_frame hf, State.setPending_resCode, State.setRes_resCode]

/-- A step that accepts no byte shows NONE, a reset included. -/
theorem exec_resCode_of_noAcceptedByte {v : InputVector} {s t : State} (hacc : acceptedByte v s = none)
    (h : exec (decode v) s = .next t) : t.resCode = .none := by
  cases hrst : InputVector.rst v with
  | false =>
    obtain ⟨-, -, hres⟩ := exec_of_noAcceptedByte hrst hacc h
    exact hres
  | true =>
    rw [decode_eq_reset_iff.mpr hrst, exec_reset] at h
    cases h
    rfl

/-- Settles O26: an accepted byte shows the transaction's result, which is never NONE; every other step shows NONE. -/
theorem resultShownExactlyWhenAccepted : Obligations.ResultShownExactlyWhenAccepted := by
  intro v s t h
  cases hacc : acceptedByte v s with
  | none => simp [exec_resCode_of_noAcceptedByte hacc h]
  | some b =>
    rw [exec_of_acceptedByte hacc] at h
    cases h
    simp [acceptByte_resCode, assemble_res_ne_none]

end Sys2Proof.Machine
end

section
/-! PROOFS. Memory: what FEED and FEED_TAKE leave unchanged (R41), the bus of a held frame (R45), and the outputs while
a reading is pending (R49). -/

namespace Sys2Proof.Machine

/-! ### What an accepted byte leaves unchanged (R103 to R107) -/

/-- A byte that does not close the attempt writes no cell but `len`. -/
theorem memRead_acceptByte_of_ne {s : State} {j : Fin 8} (b : Byte) (h7 : s.len ≠ 7) (hj : j ≠ s.len) :
    memRead j (acceptByte b s) = memRead j s := by
  rcases acceptByte_cases b s with ⟨-, -, e⟩ | ⟨h0, -, e⟩ | ⟨n, -, -, e⟩ | ⟨h, -, -⟩ | ⟨h, -, -⟩
  · rw [e]; rfl
  · rw [e]
    exact memWrite_get_other s.buf b (h0 ▸ hj.symm)
  · rw [e]
    exact memWrite_get_other s.buf b hj.symm
  · exact absurd h h7
  · exact absurd h h7

/-- The registers of the held frame change only when the byte completes a frame. -/
theorem acceptByte_keeps_held {s : State} {b : Byte} (h : s.len ≠ 7 ∨ b ≠ Config.sentinel) :
    (acceptByte b s).outValid = s.outValid ∧ (acceptByte b s).outFrame = s.outFrame := by
  rcases acceptByte_cases b s with ⟨-, -, e⟩ | ⟨-, -, e⟩ | ⟨n, -, -, e⟩ | ⟨h7, hb, -⟩ | ⟨-, -, e⟩
  · rw [e]; exact ⟨rfl, rfl⟩
  · rw [e]; exact ⟨rfl, rfl⟩
  · rw [e]; exact ⟨rfl, rfl⟩
  · exact absurd hb (h.resolve_left (not_not_intro h7))
  · rw [e]; exact ⟨rfl, rfl⟩

/-- A rejected start writes `res_code` only (R103). -/
theorem acceptByte_of_rejectedStart {s : State} {b : Byte} (h0 : s.len = 0) (hb : b ≠ Config.sentinel) :
    acceptByte b s = { s with resCode := .discarded } := by
  have ha : assemble s.len s.buf b = ⟨0, s.buf, .discarded, none⟩ := by simp [assemble, startAttempt, h0, hb]
  rw [acceptByte_of_noFrame (by rw [ha]), ha, ← h0]
  rfl

/-- The eighth byte empties the attempt, whatever it is (R106, R107). -/
theorem acceptByte_of_close {s : State} (b : Byte) (h7 : s.len = 7) :
    (acceptByte b s).len = 0 ∧ (acceptByte b s).buf = bottomCells := by
  rcases acceptByte_cases b s with ⟨h, -, -⟩ | ⟨h, -, -⟩ | ⟨n, -, hn, -⟩ | ⟨-, -, e⟩ | ⟨-, -, e⟩
  · simp [h7] at h
  · simp [h7] at h
  · have : s.len.val = 7 := congrArg Fin.val h7
    omega
  · rw [e]; exact ⟨rfl, rfl⟩
  · rw [e]; exact ⟨rfl, rfl⟩

/-! ### FEED and FEED_TAKE (R111, R113) -/

/-- With nothing pending FEED and FEED_TAKE are one operation: the byte is accepted. -/
theorem exec_of_empty {i : Instr} {b : Byte} {s : State} (hi : i = .feed b ∨ i = .feedTake b)
    (hv : s.outValid = false) : exec i s = .next (acceptByte b s) := by
  rcases hi with rfl | rfl
  · rw [exec_feed, offerByte_of_ready hv]
  · exact exec_feedTake_of_empty hv

theorem exec_feed_of_pending {b : Byte} {s : State} (hv : s.outValid = true) :
    exec (.feed b) s = .next (noByte s) := by
  rw [exec_feed, offerByte_of_pending hv]

/-- Settles O25, by whether a reading is pending: then FEED writes `res_code` only and FEED_TAKE clears the reading;
else both accept the byte, and the rules of an accepted byte give every clause. -/
theorem feedAndFeedTakeFrame : Obligations.FeedAndFeedTakeFrame := by
  intro i b s t hi h
  cases hv : s.outValid with
  | true =>
    rcases hi with rfl | rfl
    · rw [exec_feed_of_pending hv] at h
      cases h
      simp [memRead, hv]
    · rw [exec_feedTake_of_pending hv, takeReading_of_pending hv] at h
      cases h
      simp [memRead]
  | false =>
    rw [exec_of_empty hi hv] at h
    cases h
    have hheld (h : s.len ≠ 7 ∨ b ≠ 0x7E#8) :
        (acceptByte b s).outValid = false ∧ ∀ j : Fin 8, (acceptByte b s).outFrame[j] = s.outFrame[j] := by
      obtain ⟨hvalid, hframe⟩ := acceptByte_keeps_held h
      exact ⟨hvalid.trans hv, fun j => by rw [hframe]⟩
    refine ⟨acceptByte_inputs b s, nofun, nofun, fun _ h7 => ?_, fun _ h0 hb => ?_, fun _ h7 => ?_,
      fun _ _ hb => hheld (.inr hb)⟩
    · exact ⟨fun j hj => memRead_acceptByte_of_ne b h7 hj, hheld (.inl h7)⟩
    · rw [acceptByte_of_rejectedStart h0 hb]
      exact ⟨h0, fun _ => rfl⟩
    · obtain ⟨hlen, hbuf⟩ := acceptByte_of_close b h7
      exact ⟨hlen, fun j => by simp [memRead, hbuf]⟩

/-! ### The bus of a held frame (R45) -/

/-- Byte `i` of the bus's bytes is the one at offset `i`'s bits. -/
theorem busBytes_getElem? (bus : BitVec 64) (i : Fin 8) : (busBytes bus)[i.val]? = some (busByte bus i) := by
  simp [busBytes]

/-- Settles O49: the bytes read back from the bus are the frame, and cell `i` holds byte `i` of it. -/
theorem frameBusPacking : Obligations.FrameBusPacking := by
  intro s f₀ f₁ f₂ f₃ f₄ f₅ f₆ f₇ hv hf
  have hbytes := busBytes_packBytes f₀ f₁ f₂ f₃ f₄ f₅ f₆ f₇
  refine ⟨_, outFrameBus_of_held hv hf, fun i b hb => ?_, hbytes⟩
  rw [hf, cellsOf_get, ← hbytes, busBytes_getElem?] at hb
  exact Option.some.inj hb

/-! ### The outputs while a reading is pending (R49) -/

/-- A vector takes the pending reading exactly when it decodes to TAKE or FEED_TAKE. -/
theorem takesReading_iff {v : InputVector} {s : State} :
    takesReading v s = true ↔ s.outValid = true ∧ (decode v = .take ∨ ∃ b, decode v = .feedTake b) := by
  cases hr : InputVector.rst v
  · cases hi : InputVector.inValid v <;> cases ho : InputVector.outReady v <;> simp [takesReading, decode, hr, hi, ho]
  · simp [takesReading, decode, hr]

/-- While a reading is pending, a step that neither resets nor takes writes `res_code` only. -/
theorem exec_of_pending_of_not_taken {v : InputVector} {s t : State} (hv : s.outValid = true)
    (hrst : InputVector.rst v = false) (htake : takesReading v s = false) (h : exec (decode v) s = .next t) :
    t = noByte s := by
  rcases exec_cases h with ⟨hi, -⟩ | ht | ⟨-, hi, -⟩ | ⟨hempty, -⟩
  · simp [decode_eq_reset_iff, hrst] at hi
  · exact ht
  · simp [takesReading_iff.mpr ⟨hv, hi⟩] at htake
  · simp [hv] at hempty

/-- Settles O30: the step writes `res_code` only, and every output is a function of `out_valid` and `out_frame`. -/
theorem outputsStableUntilTakeOrReset : Obligations.OutputsStableUntilTakeOrReset := by
  intro v s t hv hrst htake h
  obtain rfl := exec_of_pending_of_not_taken hv hrst htake h
  exact ⟨hv, rfl, rfl, rfl, rfl, rfl, rfl, rfl, rfl, rfl⟩

end Sys2Proof.Machine
end

section
/-! PROOFS. Encoding: the fields of the input vector (R60), the opcode table (R61), the codes of `res_code` (R65), the
source lines (R69, R70), and a frame with its own CRC fed from the empty buffer (R116, R134). -/

namespace Sys2Proof.Machine

/-! ### The four fields of the input vector (R60) -/

theorem vectorBit_getElem (x : Bool) (pos : Nat) {i : Nat} (hi : i < 11) :
    (vectorBit x pos)[i] = (decide (i = pos) && x) := by
  cases x with
  | false => simp [vectorBit]
  | true =>
    rw [Bool.eq_iff_iff]
    simp [vectorBit]
    omega

/-- Every bit of a packed vector: the three flags at bits 10, 9 and 8, the byte below them. -/
theorem packVector_getElem (r iv o : Bool) (b : Byte) {i : Nat} (hi : i < 11) :
    (packVector r iv o b)[i] =
      (decide (i = 10) && r || decide (i = 9) && iv || decide (i = 8) && o || b.getLsbD i) := by
  simp [packVector, vectorBit_getElem]

theorem inData_getElem (v : InputVector) {i : Nat} (hi : i < 8) : (InputVector.inData v)[i] = v[i] := by
  simp [InputVector.inData, show i < 11 by omega]

@[simp] theorem rst_packVector (r iv o : Bool) (b : Byte) : InputVector.rst (packVector r iv o b) = r := by
  simp [InputVector.rst, packVector_getElem]

@[simp] theorem inValid_packVector (r iv o : Bool) (b : Byte) : InputVector.inValid (packVector r iv o b) = iv := by
  simp [InputVector.inValid, packVector_getElem]

@[simp] theorem outReady_packVector (r iv o : Bool) (b : Byte) : InputVector.outReady (packVector r iv o b) = o := by
  simp [InputVector.outReady, packVector_getElem]

@[simp] theorem inData_packVector (r iv o : Bool) (b : Byte) : InputVector.inData (packVector r iv o b) = b := by
  ext i hi
  simp [inData_getElem, packVector_getElem, hi, hi.ne, show i ≠ 9 by omega, show i ≠ 10 by omega]

/-- A vector is the packing of its own fields. -/
theorem packVector_fields (v : InputVector) :
    packVector (InputVector.rst v) (InputVector.inValid v) (InputVector.outReady v) (InputVector.inData v) = v := by
  ext i hi
  rw [packVector_getElem _ _ _ _ hi]
  by_cases h8 : i < 8
  · simp [inData_getElem, h8, h8.ne, show i ≠ 9 by omega, show i ≠ 10 by omega]
  · obtain rfl | rfl | rfl : i = 8 ∨ i = 9 ∨ i = 10 := by omega
    · simp [InputVector.outReady]
    · simp [InputVector.inValid]
    · simp [InputVector.rst]

/-- The packed vector as a number: the byte fills the eight low bits, so the OR of R60 is a sum. -/
theorem packVector_toNat (r iv o : Bool) (b : Byte) :
    (packVector r iv o b).toNat = r.toNat * 1024 + iv.toNat * 512 + o.toNat * 256 + b.toNat := by
  have hor : (packVector r iv o b).toNat = 2 ^ 8 * (r.toNat * 4 + iv.toNat * 2 + o.toNat) ||| b.toNat := by
    have hb : b.toNat % 2048 = b.toNat := Nat.mod_eq_of_lt (by omega)
    cases r <;> cases iv <;> cases o <;> simp [packVector, vectorBit, hb]
  rw [hor, ← Nat.two_pow_add_eq_or_of_lt b.isLt]
  omega

/-- Settles O7: the fields of a packed vector, its number, and the packing of a vector's fields. -/
theorem vectorFieldsPackAndUnpack : Obligations.VectorFieldsPackAndUnpack :=
  ⟨fun r iv o b => ⟨packVector_toNat r iv o b, rst_packVector r iv o b, inValid_packVector r iv o b,
    outReady_packVector r iv o b, inData_packVector r iv o b⟩, packVector_fields⟩

/-- Settles O10: the vectors without an operand are constants, and FEED and FEED_TAKE are packed vectors. -/
theorem notationVectors : Obligations.NotationVectors := by
  refine ⟨rfl, rfl, rfl, fun b => ?_, fun b => ?_⟩
  · simp [encode, packVector_toNat]
  · simp [encode, packVector_toNat]

/-! ### The opcode table (R61) -/

/-- Packing loses no field. -/
theorem packVector_inj {r iv o r' iv' o' : Bool} {b b' : Byte} :
    packVector r iv o b = packVector r' iv' o' b' ↔ r = r' ∧ iv = iv' ∧ o = o' ∧ b = b' := by
  refine ⟨fun h => ⟨?_, ?_, ?_, ?_⟩, fun ⟨hr, hiv, ho, hb⟩ => by rw [hr, hiv, ho, hb]⟩
  · simpa using congrArg InputVector.rst h
  · simpa using congrArg InputVector.inValid h
  · simpa using congrArg InputVector.outReady h
  · simpa using congrArg InputVector.inData h

/-- The mask of RESET keeps `rst` alone. -/
theorem and_resetMask (v : InputVector) : v &&& 0x400#11 = packVector (InputVector.rst v) false false 0 := by
  ext i hi
  interval_cases i <;> simp [packVector_getElem, InputVector.rst]

/-- The mask of the other operations keeps the three flags. -/
theorem and_flagsMask (v : InputVector) : v &&& 0x700#11 =
    packVector (InputVector.rst v) (InputVector.inValid v) (InputVector.outReady v) 0 := by
  ext i hi
  interval_cases i <;> simp [packVector_getElem, InputVector.rst, InputVector.inValid, InputVector.outReady]

/-- The vector an operation is encoded to stands in the operation's row. -/
theorem encode_and_opMask (i : Instr) : encode i &&& i.opMask = i.opMatch := by
  cases i with
  | reset => exact Laws.TableRow.reset
  | idle => exact Laws.TableRow.idle
  | take => exact Laws.TableRow.take
  | feed b => exact Laws.TableRow.feed b
  | feedTake b => exact Laws.TableRow.feedTake b

/-- The flags by which the table tells the operations apart: `rst`, and without a reset the other two as well. -/
def SameFlags (v w : InputVector) : Prop :=
  InputVector.rst v = InputVector.rst w ∧ (InputVector.rst w = false →
    InputVector.inValid v = InputVector.inValid w ∧ InputVector.outReady v = InputVector.outReady w)

/-- A vector stands in an operation's row exactly when it has the flags of the operation's own vector. -/
theorem and_opMask_eq_opMatch_iff {v : InputVector} {i : Instr} :
    v &&& i.opMask = i.opMatch ↔ SameFlags v (encode i) := by
  rw [← encode_and_opMask]
  cases i with
  | reset => simp [Instr.opMask, and_resetMask, packVector_inj, SameFlags, encode]
  | _ => simp [Instr.opMask, and_flagsMask, packVector_inj, SameFlags, encode]

/-- Encoding what a vector decodes to gives back its flags. -/
theorem sameFlags_encode_decode (v : InputVector) : SameFlags v (encode (decode v)) := by
  cases hr : InputVector.rst v
  · cases hv : InputVector.inValid v <;> cases ho : InputVector.outReady v <;>
      simp [SameFlags, decode, encode, hr, hv, ho]
  · simp [SameFlags, decode, encode, hr]

/-- The flags of an operation's vector, with its operand, decode to the operation. -/
theorem decode_of_sameFlags {v : InputVector} {i : Instr} (hflags : SameFlags v (encode i))
    (hdata : ∀ b, i.operand = some b → InputVector.inData v = b) : decode v = i := by
  obtain ⟨hr, hrest⟩ := hflags
  cases i with
  | reset => exact decode_eq_reset_iff.mpr (by simpa [encode] using hr)
  | idle | take => simp_all [decode, encode]
  | feed b | feedTake b => simp_all [decode, encode, Instr.operand]

/-- Decoding an operation's vector gives the operation back. -/
@[simp] theorem decode_encode (i : Instr) : decode (encode i) = i := by
  refine decode_of_sameFlags ⟨rfl, fun _ => ⟨rfl, rfl⟩⟩ fun b hb => ?_
  cases i <;> simp_all [Instr.operand, encode]

/-- Settles O8: standing in a row is having the flags of the operation's vector, and `in_data` is read only where there
is an operand. -/
theorem decodeFollowsOpcodeTable : Obligations.DecodeFollowsOpcodeTable := by
  intro v i
  rw [and_opMask_eq_opMatch_iff]
  refine ⟨?_, fun ⟨hflags, hdata⟩ => decode_of_sameFlags hflags hdata⟩
  rintro rfl
  refine ⟨sameFlags_encode_decode v, fun b hb => ?_⟩
  obtain ⟨-, -, hdata⟩ := operand_decode_eq_some_iff.mp hb
  exact hdata

/-- Settles O12: a number from 2048 up does not fit the 11 bits. -/
theorem wideWordsAreRefused : Obligations.WideWordsAreRefused := by
  intro w hw
  have hwf : wordWf w = false := by simp [wordWf, hw]
  simp [decodeWord, hwf]

/-! ### The codes of `res_code` (R65) -/

/-- Only NONE has the code 0. -/
theorem ResCode.code_eq_zero_iff {r : ResCode} : r.code = 0b00#2 ↔ r = .none := by
  cases r <;> decide

/-- Settles O13: only NONE has the code 0, and the transaction never answers NONE. -/
theorem resultCodes : Obligations.ResultCodes :=
  ⟨rfl, rfl, rfl, rfl, fun len buf b h => assemble_res_ne_none len buf b (ResCode.code_eq_zero_iff.mp h)⟩

/-! ### The pseudo-instructions (R70) -/

/-- Bytes written as numbers are read back unchanged. -/
theorem map_ofNat_map_toNat (bs : List Byte) : (bs.map BitVec.toNat).map (BitVec.ofNat 8) = bs := by
  simp [Function.comp_def]

/-- Of a line whose operands are bytes only their number can be wrong. -/
theorem wf_map_toNat (m : Mnemonic) (bs : List Byte) :
    SourceLine.wf ⟨m, bs.map BitVec.toNat⟩ = SourceLine.countOk ⟨m, bs.map BitVec.toNat⟩ := by
  have hbytes : SourceLine.bytesOk ⟨m, bs.map BitVec.toNat⟩ = true := by
    simpa [SourceLine.bytesOk] using fun b (_ : b ∈ bs) => b.isLt
  rw [SourceLine.wf, hbytes, Bool.and_true]

theorem expandLine_feeds {bs : List Byte} (h : bs ≠ []) :
    expandLine ⟨.feeds, bs.map BitVec.toNat⟩ = some (bs.map .feed) := by
  have hcount : SourceLine.countOk ⟨.feeds, bs.map BitVec.toNat⟩ = true := by
    simpa [SourceLine.countOk, Nat.one_le_iff_ne_zero] using h
  simp only [expandLine, wf_map_toNat, map_ofNat_map_toNat, hcount, if_true]

theorem expandLine_frame (t d q v : Byte) :
    expandLine ⟨.frame, [t, d, q, v].map BitVec.toNat⟩ = some ((frameBytes t d q v).map .feed) := by
  simp only [expandLine, wf_map_toNat, map_ofNat_map_toNat]
  rfl

theorem expandLine_framec (t d q v h l : Byte) :
    expandLine ⟨.framec, [t, d, q, v, h, l].map BitVec.toNat⟩ = some ((framecBytes t d q v h l).map .feed) := by
  simp only [expandLine, wf_map_toNat, map_ofNat_map_toNat]
  rfl

/-- Settles O59: one expansion for each word, on operands written as numbers. -/
theorem pseudoInstructionExpansion : Obligations.PseudoInstructionExpansion :=
  ⟨fun _ => expandLine_feeds, expandLine_frame, expandLine_framec⟩

/-! ### Eight bytes fed from the empty buffer (R104 to R106, R116) -/

/-- A run goes on from the state its first operation leaves. -/
theorem runEnd_cons_encode {i : Instr} {s t : State} (vs : List InputVector) (h : exec i s = .next t) :
    runEnd (encode i :: vs) s = runEnd vs t := by
  simp [runEnd, h]

/-- The vectors of FEED steps for a list of bytes. -/
def feedVectors (bs : List Byte) : List InputVector := bs.map fun b => encode (.feed b)

/-- With nothing pending a fed byte is accepted, and the run goes on. -/
theorem runEnd_feedVectors_cons {s : State} (b : Byte) (bs : List Byte) (hv : s.outValid = false) :
    runEnd (feedVectors (b :: bs)) s = runEnd (feedVectors bs) (acceptByte b s) :=
  runEnd_cons_encode _ (exec_of_empty (.inl rfl) hv)

/-- The first cells hold these bytes; the cells above them hold anything. -/
def StartsWith (f : Cells) (bs : List Byte) : Prop := ∀ n (h : n < 8), n < bs.length → f[n] = bs[n]?

/-- A write at the next place adds one byte. -/
theorem StartsWith.memWrite {f : Cells} {bs : List Byte} {i : Fin 8} (b : Byte) (hf : StartsWith f bs)
    (hi : i.val = bs.length) : StartsWith (memWrite f i b) (bs ++ [b]) := by
  intro n hn hlt
  rw [memWrite_get, hi]
  rcases Nat.lt_succ_iff_lt_or_eq.mp (by simpa using hlt) with hold | rfl
  · rw [if_neg hold.ne', hf n hn hold, List.getElem?_append_left hold]
  · simp

/-- Eight bytes fill all cells. -/
theorem StartsWith.eq_cellsOf {f : Cells} {bs : List Byte} (hf : StartsWith f bs) (h : bs.length = 8) :
    f = cellsOf bs := by
  apply Vector.ext
  intro n hn
  rw [hf n hn (by omega)]
  simp [cellsOf]

/-- An attempt in progress with nothing pending. Only the cells below `len` matter, since every cell is written before
the frame is complete; so an empty attempt may leave stale bytes in the buffer. -/
structure Collecting (s : State) (bs : List Byte) : Prop where
  empty : s.outValid = false
  len : s.len.val = bs.length
  cells : StartsWith s.buf bs

/-- A sentinel on the empty buffer starts the attempt (R104). -/
theorem collecting_start {s : State} (h0 : s.len = 0) (hv : s.outValid = false) :
    Collecting (acceptByte Config.sentinel s) [Config.sentinel] := by
  rcases acceptByte_cases Config.sentinel s with ⟨-, hb, -⟩ | ⟨-, -, e⟩ | ⟨n, h, -, -⟩ | ⟨h7, -, -⟩ | ⟨h7, -, -⟩
  · exact absurd rfl hb
  · rw [e]
    exact ⟨hv, rfl, StartsWith.memWrite (bs := []) _ nofun rfl⟩
  · exact absurd h0 h
  · simp [h0] at h7
  · simp [h0] at h7

/-- A byte in the middle of the attempt is appended, whatever it is (R105). -/
theorem Collecting.append {s : State} {bs : List Byte} (b : Byte) (hc : Collecting s bs) (hne : bs ≠ [])
    (hlt : bs.length < 7) : Collecting (acceptByte b s) (bs ++ [b]) := by
  obtain ⟨hv, hlen, hcells⟩ := hc
  have hpos : s.len.val ≠ 0 := hlen ▸ mt List.eq_nil_of_length_eq_zero hne
  rcases acceptByte_cases b s with ⟨h0, -, -⟩ | ⟨h0, -, -⟩ | ⟨n, -, hn, e⟩ | ⟨h7, -, -⟩ | ⟨h7, -, -⟩
  · simp [h0] at hpos
  · simp [h0] at hpos
  · rw [e]
    exact ⟨hv, by simp [hn, hlen], hcells.memWrite b hlen⟩
  · have : s.len.val = 7 := congrArg Fin.val h7
    omega
  · have : s.len.val = 7 := congrArg Fin.val h7
    omega

/-- A sentinel as the eighth byte makes the eight bytes the pending frame (R106). -/
theorem Collecting.close {s : State} {bs : List Byte} (hc : Collecting s bs) (h7 : bs.length = 7) :
    acceptByte Config.sentinel s = { s with
      len := 0, buf := bottomCells, outValid := true, outFrame := cellsOf (bs ++ [Config.sentinel]),
      resCode := .complete } := by
  obtain ⟨hv, hlen, hcells⟩ := hc
  have hframe : memWrite s.buf 7 Config.sentinel = cellsOf (bs ++ [Config.sentinel]) :=
    (hcells.memWrite _ h7.symm).eq_cellsOf (by simp [h7])
  rcases acceptByte_cases Config.sentinel s with ⟨h0, -, -⟩ | ⟨h0, -, -⟩ | ⟨n, -, hn, -⟩ | ⟨-, -, e⟩ | ⟨-, hb, -⟩
  · simp [h0, h7] at hlen
  · simp [h0, h7] at hlen
  · omega
  · rw [e, hframe]
  · exact absurd rfl hb

/-- Feeding bytes that leave room for the eighth one appends them all. -/
theorem Collecting.runEnd_append {s : State} {bs : List Byte} (cs rest : List Byte) (hc : Collecting s bs)
    (hne : bs ≠ []) (hle : bs.length + cs.length ≤ 7) :
    ∃ t, runEnd (feedVectors (cs ++ rest)) s = runEnd (feedVectors rest) t ∧ Collecting t (bs ++ cs) := by
  induction cs generalizing s bs with
  | nil => exact ⟨s, rfl, by simpa using hc⟩
  | cons c cs ih =>
    rw [List.length_cons] at hle
    obtain ⟨t, hrun, ht⟩ := ih (hc.append c hne (by omega)) (by simp) (by simp; omega)
    exact ⟨t, (runEnd_feedVectors_cons c _ hc.empty).trans hrun, by simpa using ht⟩

/-- Six bytes between two sentinels, fed from the empty buffer with nothing pending, become the pending frame. -/
theorem runEnd_feed_frame {s : State} {xs : List Byte} (h0 : s.len = 0) (hv : s.outValid = false)
    (hx : xs.length = 6) :
    ∃ u, runEnd (feedVectors (Config.sentinel :: xs ++ [Config.sentinel])) s = .next u ∧
      u.len = 0 ∧ u.outValid = true ∧ u.resCode = .complete ∧
      u.outFrame = cellsOf (Config.sentinel :: xs ++ [Config.sentinel]) := by
  obtain ⟨t, hrun, ht⟩ :=
    (collecting_start h0 hv).runEnd_append xs [Config.sentinel] (by simp) (by simp [hx])
  have hlast := runEnd_feedVectors_cons Config.sentinel [] ht.empty
  rw [ht.close (by simp [hx])] at hlast
  exact ⟨_, (runEnd_feedVectors_cons _ _ hv).trans (hrun.trans hlast), rfl, rfl, rfl, rfl⟩

/-! ### A frame with its own CRC (R70 FRAME, R134) -/

/-- The two bytes of a CRC, high one first, put together again are the CRC. -/
theorem bigEndian16_highByte_lowByte (c : Crc) : bigEndian16 (highByte c) (lowByte c) = c := by
  ext i hi
  by_cases h8 : i < 8
  · simp [bigEndian16, zext16, highByte, lowByte, h8, hi]
  · simp [bigEndian16, zext16, highByte, lowByte, h8, hi, show i - 8 < 8 by omega, show 8 + (i - 8) = i by omega]

/-- Settles O60: the eight bytes become the pending frame, whose CRC bytes are those of its own CRC. -/
theorem frameWithOwnCrcIsValid : Obligations.FrameWithOwnCrcIsValid := by
  intro s t d q v h0 hv
  have hcrc := bigEndian16_highByte_lowByte (crc16 [t, d, q, v])
  obtain ⟨u, hrun, hlen, hvalid, hres, hframe⟩ := runEnd_feed_frame
    (xs := [t, d, q, v, highByte (crc16 [t, d, q, v]), lowByte (crc16 [t, d, q, v])]) h0 hv rfl
  refine ⟨u, hrun, hlen, hvalid, hres, ?_, outType_of_held hvalid hframe, outDispid_of_held hvalid hframe,
    outQuery_of_held hvalid hframe, outData_of_held hvalid hframe⟩
  rw [outCrcValid_of_held hvalid hframe, hcrc, beq_self_eq_true]

end Sys2Proof.Machine
end

section
/-! PROOFS. The CRC generator (spec/40_crc.md R81 to R88): the bit step and the byte step on numbers, the CRC of a
sequence as a fold, and the residue law. -/

namespace Sys2Proof.Machine

/-! ### The bit step (R81) -/

/-- Position 15 is set exactly in the upper half of the 16-bit values. -/
theorem getLsbD_fifteen (r : Crc) : r.getLsbD 15 = decide (32768 ≤ r.toNat) :=
  BitVec.msb_eq_decide r

theorem crcBit_of_lt {r : Crc} (h : r.toNat < 32768) : crcBit r = r <<< 1 := by
  rw [crcBit, getLsbD_fifteen, decide_eq_false (by omega), if_neg Bool.false_ne_true]

theorem crcBit_of_le {r : Crc} (h : 32768 ≤ r.toNat) : crcBit r = (r <<< 1) ^^^ Config.crcPoly := by
  rw [crcBit, getLsbD_fifteen, decide_eq_true h, if_pos rfl]

/-- Settles O40: the shift doubles the number, and only from 32768 on is there a bit to drop. -/
theorem crcBitStep : Obligations.CrcBitStep := by
  refine ⟨fun r => ?_, by decide, by decide, by decide, by decide⟩
  have hshift : (r <<< 1).toNat = 2 * r.toNat % 65536 := by
    rw [BitVec.toNat_shiftLeft, Nat.shiftLeft_eq, Nat.mul_comm]
  split
  case isTrue h => rw [crcBit_of_le h, BitVec.toNat_xor, hshift]; rfl
  case isFalse h => rw [crcBit_of_lt (by omega), hshift, Nat.mod_eq_of_lt (by omega)]

/-! ### The byte step (R82) -/

theorem crcBits_eq_iterate (n : Nat) (r : Crc) : crcBits n r = crcBit^[n] r := by
  induction n generalizing r with
  | zero => rfl
  | succ n ih => exact ih (crcBit r)

/-- A byte moved into the high byte of the register, as a number. -/
theorem zext16_shiftLeft_eight (b : Byte) : zext16 b <<< 8 = BitVec.ofNat 16 (b.toNat * 256) := by
  apply BitVec.eq_of_toNat_eq
  simp [zext16, Nat.shiftLeft_eq]

/-- Settles O41: the eight bit steps are the iterated bit step. -/
theorem crcByteStep : Obligations.CrcByteStep := by
  refine ⟨fun r b => ?_, by decide, by decide, by decide, by decide⟩
  rw [crcByte, zext16_shiftLeft_eight, crcBits_eq_iterate]

/-! ### The CRC of a sequence (R83, R86) -/

theorem crcFold_eq_foldl (r : Crc) (bs : List Byte) : crcFold r bs = bs.foldl crcByte r := by
  induction bs generalizing r with
  | nil => rfl
  | cons b bs ih => exact ih (crcByte r b)

theorem crc16_append (bs cs : List Byte) : crc16 (bs ++ cs) = cs.foldl crcByte (crc16 bs) := by
  simp only [crc16, crcFold_eq_foldl, List.foldl_append]

/-- Settles O43: folds over a concatenation compose. -/
theorem crcFoldLaw : Obligations.CrcFoldLaw := crc16_append

/-- Settles O42: the model's recursion is the left fold of the byte step; the listed values are computed. -/
theorem crcOfSequence : Obligations.CrcOfSequence :=
  ⟨rfl, crcFold_eq_foldl _, by decide, by decide, by decide, by decide, by decide +kernel⟩

/-! ### The residue law (R87) -/

/-- Bit steps on a number too small to reach position 15 only shift it: the polynomial never comes in. -/
theorem crcBits_of_lt {n : Nat} {r : Crc} (h : r.toNat * 2 ^ n < 65536) : crcBits n r = r <<< n := by
  induction n generalizing r with
  | zero => simp [crcBits]
  | succ n ih =>
    have hdouble : r.toNat * 2 * 2 ^ n < 65536 := by rwa [Nat.mul_assoc, ← Nat.pow_succ']
    have hlt : r.toNat * 2 < 65536 := (Nat.le_mul_of_pos_right _ (by positivity)).trans_lt hdouble
    have hshift : (r <<< 1).toNat = r.toNat * 2 := by
      rw [BitVec.toNat_shiftLeft, Nat.shiftLeft_eq, Nat.mod_eq_of_lt hlt]
    rw [crcBits, crcBit_of_lt (by omega), ih (hshift ▸ hdouble), ← BitVec.shiftLeft_add, Nat.add_comm]

/-- XORed with its own high byte, a register keeps its low byte only. -/
theorem xor_highByte_shiftLeft (r : Crc) : r ^^^ (zext16 (highByte r) <<< 8) = zext16 (lowByte r) := by
  ext i hi
  by_cases h8 : i < 8
  · simp [zext16, highByte, lowByte, h8, hi]
  · simp [zext16, highByte, lowByte, h8, hi, show i - 8 < 8 by omega, show 8 + (i - 8) = i by omega]

/-- Fed its own high byte, a register moves its low byte up. -/
theorem crcByte_highByte (r : Crc) : crcByte r (highByte r) = zext16 (lowByte r) <<< 8 := by
  have hlow : (zext16 (lowByte r)).toNat < 256 := by
    rw [zext16, BitVec.toNat_setWidth_of_le (by decide)]
    exact (lowByte r).isLt
  rw [crcByte, xor_highByte_shiftLeft, crcBits_of_lt (by omega)]

/-- A register that holds only the byte fed to it, in its high byte, becomes 0. -/
theorem crcByte_shiftLeft_self (b : Byte) : crcByte (zext16 b <<< 8) b = 0#16 := by
  rw [crcByte, BitVec.xor_self]
  rfl

/-- Settles O44: the CRC's high byte leaves its low byte in the high place, where the low byte cancels it. The example
is the law for the four bytes of O42. -/
theorem crcResidueLaw : Obligations.CrcResidueLaw := by
  have hlaw (bs : List Byte) : crc16 (bs ++ [highByte (crc16 bs), lowByte (crc16 bs)]) = 0x0000#16 := by
    rw [crc16_append, List.foldl_cons, List.foldl_cons, List.foldl_nil, crcByte_highByte, crcByte_shiftLeft_self]
  refine ⟨hlaw, ?_⟩
  obtain ⟨-, -, -, -, -, hcrc, -⟩ := crcOfSequence
  have hexample := hlaw [0x01#8, 0x05#8, 0x10#8, 0x20#8]
  rwa [hcrc] at hexample

end Sys2Proof.Machine
end

section
/-! PROOFS. The synchronizer (spec/41_frame_sync.md): one byte of the transaction (R102 to R107), the operations FEED,
IDLE and FEED_TAKE (R111 to R113), and streams of accepted bytes (R110, R114 to R119). -/

namespace Sys2Proof.Machine

/-! ### One accepted byte (R103 to R107) -/

/-- A first byte other than the sentinel is rejected (R103). -/
theorem assemble_reject (buf : Cells) {b : Byte} (hb : b ≠ Config.sentinel) :
    assemble 0 buf b = ⟨0, buf, .discarded, none⟩ := by
  simp [assemble, startAttempt, hb]

/-- The sentinel on the empty buffer starts the attempt (R104). -/
theorem assemble_start (buf : Cells) :
    assemble 0 buf Config.sentinel = ⟨1, memWrite buf 0 Config.sentinel, .incomplete, none⟩ := rfl

/-- A byte in the middle is appended, whatever it is (R105). -/
theorem assemble_append {len : Fin 8} (buf : Cells) (b : Byte) (h0 : len ≠ 0) (h7 : len.val + 1 < 8) :
    assemble len buf b = ⟨⟨len.val + 1, h7⟩, memWrite buf len b, .incomplete, none⟩ := by
  simp [assemble, h0, h7, Config.frameLen]

/-- The sentinel as the eighth byte completes the frame (R106). -/
theorem assemble_complete (buf : Cells) :
    assemble 7 buf Config.sentinel = ⟨0, bottomCells, .complete, some (memWrite buf 7 Config.sentinel)⟩ := rfl

/-- Any other eighth byte discards the attempt (R107). -/
theorem assemble_discard (buf : Cells) {b : Byte} (hb : b ≠ Config.sentinel) :
    assemble 7 buf b = ⟨0, bottomCells, .discarded, none⟩ := by
  simp [assemble, closeAttempt, hb]

/-- A frame is completed by the bytes that show COMPLETE, and by no others. -/
theorem assemble_frame_isSome_iff (len : Fin 8) (buf : Cells) (b : Byte) :
    (assemble len buf b).frame.isSome = true ↔ (assemble len buf b).res = .complete := by
  rcases assemble_cases len buf b with ⟨-, -, e⟩ | ⟨-, -, e⟩ | ⟨n, -, -, e⟩ | ⟨-, -, e⟩ | ⟨-, -, e⟩ <;> simp [e]

/-- A byte shows COMPLETE only as the eighth one, and only if it is the sentinel. -/
theorem closes_of_assemble_res_complete {len : Fin 8} {buf : Cells} {b : Byte}
    (h : (assemble len buf b).res = .complete) : len = 7 ∧ b = Config.sentinel := by
  rcases assemble_cases len buf b with ⟨-, -, e⟩ | ⟨-, -, e⟩ | ⟨n, -, -, e⟩ | ⟨h7, hb, -⟩ | ⟨-, -, e⟩
  · simp [e] at h
  · simp [e] at h
  · simp [e] at h
  · exact ⟨h7, hb⟩
  · simp [e] at h

/-- A byte that leaves an attempt open was stored in cell `len`, and completed nothing. -/
theorem assemble_of_len_ne_zero {len : Fin 8} {buf : Cells} {b : Byte} (h : (assemble len buf b).len ≠ 0) :
    (assemble len buf b).len.val = len.val + 1 ∧ (assemble len buf b).buf = memWrite buf len b ∧
      (assemble len buf b).frame = none := by
  rcases assemble_cases len buf b with ⟨-, -, e⟩ | ⟨h0, -, e⟩ | ⟨n, -, hn, e⟩ | ⟨-, -, e⟩ | ⟨-, -, e⟩
  · simp [e] at h
  · subst h0
    rw [e]
    exact ⟨rfl, rfl, rfl⟩
  · rw [e]
    exact ⟨hn, rfl, rfl⟩
  · simp [e] at h
  · simp [e] at h

/-- Settles O18: `assemble_reject` and `assemble_start` are the two cases of a first byte. -/
theorem firstByteOfAttempt : Obligations.FirstByteOfAttempt := by
  refine fun buf b => ⟨fun hb => assemble_reject buf hb, ?_⟩
  rintro rfl
  exact ⟨_, assemble_start buf, rfl, rfl, rfl, memWrite_get buf 0 _ 0 (by decide),
    fun i hi => memWrite_get_other buf _ hi.symm⟩

/-- Settles O19: the byte is appended at cell `len`. -/
theorem interiorByteAppended : Obligations.InteriorByteAppended := by
  intro len buf b h1 h6
  have h0 : len ≠ 0 := by
    rintro rfl
    simp at h1
  exact ⟨_, assemble_append buf b h0 (by omega), rfl, rfl, rfl, by simp,
    fun i hi => memWrite_get_other buf b hi.symm⟩

/-- Settles O20: `assemble_complete` and `assemble_discard` are the two cases of an eighth byte. -/
theorem eighthByteOfAttempt : Obligations.EighthByteOfAttempt := by
  refine fun buf b => ⟨?_, fun hb => assemble_discard buf hb, fun i => bottomCells_get i i.isLt⟩
  rintro rfl
  exact ⟨_, assemble_complete buf, fun i hi => memWrite_get_other buf _ hi.symm,
    memWrite_get buf 7 _ 7 (by decide)⟩

/-! ### The operations (R111 to R113) -/

/-- What an accepted byte writes: the transaction's `len` and `buf`, and the held frame exactly when it completes one
(R111). -/
theorem acceptByte_registers (b : Byte) (s : State) :
    (acceptByte b s).len = (assemble s.len s.buf b).len ∧ (acceptByte b s).buf = (assemble s.len s.buf b).buf ∧
      ((assemble s.len s.buf b).res = .complete →
        (acceptByte b s).outValid = true ∧ (assemble s.len s.buf b).frame = some (acceptByte b s).outFrame) ∧
      ((assemble s.len s.buf b).res ≠ .complete →
        (acceptByte b s).outValid = s.outValid ∧ (acceptByte b s).outFrame = s.outFrame) := by
  rw [ne_eq, ← assemble_frame_isSome_iff]
  cases hf : (assemble s.len s.buf b).frame with
  | none => simp [acceptByte_of_noFrame hf]
  | some f => simp [acceptByte_of_frame hf]

/-- Settles O21: a pending reading refuses the byte; else the byte is accepted and `acceptByte_registers` says what it
writes. -/
theorem feedResult : Obligations.FeedResult := by
  refine ⟨fun v hr hv ho => by simp [decode, hr, hv, ho], fun b s => ⟨exec_feed_of_pending, fun hempty => ?_⟩⟩
  obtain ⟨hlen, hbuf, hcomplete, hkeep⟩ := acceptByte_registers b s
  rw [hempty] at hkeep
  exact ⟨_, exec_of_empty (.inl rfl) hempty, hlen, hbuf, acceptByte_resCode b s, acceptByte_inputs b s, hcomplete, hkeep⟩

/-- Settles O22: IDLE is a step that accepts no byte. -/
theorem idleResult : Obligations.IdleResult :=
  ⟨fun v hr hv ho => by simp [decode, hr, hv, ho], exec_idle⟩

/-- Settles O24: FEED_TAKE is TAKE while a reading is pending, else FEED. -/
theorem feedTakeResult : Obligations.FeedTakeResult := by
  refine ⟨fun v hr hv ho => by simp [decode, hr, hv, ho], fun b s => ⟨fun hv => ?_, fun hv => ?_⟩⟩
  · refine ⟨_, exec_feedTake_of_pending hv, exec_take s, ?_⟩
    rw [takeReading_of_pending hv]
    exact ⟨rfl, rfl, rfl, rfl⟩
  · exact ⟨_, exec_feedTake_of_empty hv, exec_of_empty (.inl rfl) hv, acceptByte_resCode b s⟩

/-! ### Steps that accept no byte (R101, R114) -/

/-- Settles O27: without an accepted byte the operation carries none, or a reading is pending, and then FEED and
FEED_TAKE do not look at theirs. -/
theorem unacceptedDataIgnored : Obligations.UnacceptedDataIgnored := by
  intro r iv o b b' s hacc
  cases r with
  | true => simp [decode]
  | false =>
    cases iv with
    | false => cases o <;> simp [decode]
    | true =>
      have hv : s.outValid = true := by simpa [acceptedByte, inReady] using hacc
      cases o with
      | false => simp [decode, exec_feed_of_pending hv]
      | true => simp [decode, exec_feedTake_of_pending hv]

/-- Settles O28, by induction on the vectors: each step accepts no byte and keeps the attempt. -/
theorem nonAcceptingStepsKeepAttempt : Obligations.NonAcceptingStepsKeepAttempt := by
  intro vs s hrst hacc
  induction vs generalizing s with
  | nil => exact ⟨s, rfl, rfl, rfl⟩
  | cons v vs ih =>
    obtain ⟨hv, hvs⟩ := List.forall_mem_cons.mp hrst
    obtain ⟨t, ht⟩ := exec_next (decode v) s
    obtain ⟨hnone, hrest⟩ : acceptedByte v s = none ∧ runAccepted vs t = [] := by
      simpa [runAccepted, ht] using hacc
    obtain ⟨hlen, hbuf, -⟩ := exec_of_noAcceptedByte hv hnone ht
    obtain ⟨u, hu, hulen, hubuf⟩ := ih t hvs hrest
    exact ⟨u, by simpa [runEnd, ht] using hu, hulen.trans hlen, hubuf.trans hbuf⟩

/-! ### Streams, piece by piece -/

/-- What a stream of accepted bytes does from one attempt to the next: where it ends, the results it shows, and the frames
it completes. -/
structure Streams (start : Fin 8 × Cells) (bs : List Byte) (stop : Fin 8 × Cells) (rs : List ResCode)
    (fs : List Cells) : Prop where
  stop_eq : streamEnd start.1 start.2 bs = stop
  results_eq : streamResults start.1 start.2 bs = rs
  frames_eq : streamFrames start.1 start.2 bs = fs

theorem Streams.of_stream (len : Fin 8) (buf : Cells) (bs : List Byte) :
    Streams (len, buf) bs (streamEnd len buf bs) (streamResults len buf bs) (streamFrames len buf bs) :=
  ⟨rfl, rfl, rfl⟩

theorem Streams.nil (start : Fin 8 × Cells) : Streams start [] start [] [] := ⟨rfl, rfl, rfl⟩

/-- One byte before a stream. -/
theorem Streams.cons {len : Fin 8} {buf : Cells} {b : Byte} {bs : List Byte} {a : Assembly} {stop : Fin 8 × Cells}
    {rs : List ResCode} {fs : List Cells} (ha : assemble len buf b = a) (h : Streams (a.len, a.buf) bs stop rs fs) :
    Streams (len, buf) (b :: bs) stop (a.res :: rs) (a.frame.toList ++ fs) := by
  subst ha
  exact ⟨h.stop_eq, congrArg _ h.results_eq, congrArg _ h.frames_eq⟩

theorem Streams.single {len : Fin 8} {buf : Cells} {b : Byte} {a : Assembly} (ha : assemble len buf b = a) :
    Streams (len, buf) [b] (a.len, a.buf) [a.res] a.frame.toList := by
  simpa using Streams.cons ha (.nil _)

/-- Two streams one after the other. -/
theorem Streams.append {start mid stop : Fin 8 × Cells} {bs cs : List Byte} {rs rs' : List ResCode}
    {fs fs' : List Cells} (h : Streams start bs mid rs fs) (h' : Streams mid cs stop rs' fs') :
    Streams start (bs ++ cs) stop (rs ++ rs') (fs ++ fs') := by
  obtain ⟨len, buf⟩ := start
  induction bs generalizing len buf rs fs with
  | nil =>
    obtain ⟨rfl, rfl, rfl⟩ := h
    exact h'
  | cons b bs ih =>
    obtain ⟨rfl, rfl, rfl⟩ := h
    simpa [streamResults, streamFrames] using Streams.cons rfl (ih _ _ (.of_stream _ _ bs))

/-! ### The pieces a stream is made of (R103 to R107) -/

/-- From the empty buffer bytes other than the sentinel are all rejected. -/
theorem streams_reject (buf : Cells) {bs : List Byte} (hbs : ∀ b ∈ bs, b ≠ Config.sentinel) :
    Streams (0, buf) bs (0, buf) (List.replicate bs.length .discarded) [] := by
  induction bs with
  | nil => exact .nil _
  | cons b bs ih =>
    obtain ⟨hb, hbs⟩ := List.forall_mem_cons.mp hbs
    exact .cons (assemble_reject buf hb) (ih hbs)

/-- The sentinel on the empty buffer opens an attempt that holds it. -/
theorem streams_start (buf : Cells) :
    ∃ buf', Streams (0, buf) [Config.sentinel] (1, buf') [.incomplete] [] ∧ StartsWith buf' [Config.sentinel] :=
  ⟨_, .single (assemble_start buf), StartsWith.memWrite (bs := []) _ nofun rfl⟩

/-- On an open attempt bytes that leave room for the eighth one are all appended. -/
theorem streams_fill {len : Fin 8} (buf : Cells) (bs : List Byte) (h0 : len ≠ 0) (hroom : len.val + bs.length ≤ 7) :
    ∃ (n : Fin 8) (buf' : Cells), n.val = len.val + bs.length ∧
      Streams (len, buf) bs (n, buf') (List.replicate bs.length .incomplete) [] ∧
      ∀ held : List Byte, held.length = len.val → StartsWith buf held → StartsWith buf' (held ++ bs) := by
  induction bs generalizing len buf with
  | nil => exact ⟨len, buf, rfl, .nil _, fun held _ hheld => by simpa using hheld⟩
  | cons b bs ih =>
    rw [List.length_cons] at hroom
    have h7 : len.val + 1 < 8 := by omega
    obtain ⟨n, buf', hn, hs, hholds⟩ := ih (len := ⟨len.val + 1, h7⟩) (memWrite buf len b)
      (Fin.ne_of_val_ne (Nat.succ_ne_zero _)) (show len.val + 1 + bs.length ≤ 7 by omega)
    refine ⟨n, buf', ?_, .cons (assemble_append buf b h0 h7) hs, fun held hlen hheld => ?_⟩
    · rw [hn, List.length_cons]
      exact Nat.add_right_comm ..
    · simpa using hholds (held ++ [b]) (by simp [hlen]) (hheld.memWrite b hlen.symm)

/-- On an open attempt the bytes up to the seventh fill it. -/
theorem streams_fill_to_seven {len : Fin 8} (buf : Cells) {bs : List Byte} (h0 : len ≠ 0)
    (hbs : bs.length = 7 - len.val) :
    ∃ buf' : Cells, Streams (len, buf) bs (7, buf') (List.replicate bs.length .incomplete) [] ∧
      ∀ held : List Byte, held.length = len.val → StartsWith buf held → StartsWith buf' (held ++ bs) := by
  obtain ⟨n, buf', hn, hs, hholds⟩ := streams_fill buf bs h0 (by omega)
  obtain rfl : n = 7 := Fin.ext (show n.val = 7 by omega)
  exact ⟨buf', hs, hholds⟩

/-- A sentinel as the eighth byte completes the frame of the eight bytes. -/
theorem streams_complete {len : Fin 8} {buf : Cells} {held bs : List Byte} (h0 : len ≠ 0)
    (hbs : bs.length = 7 - len.val) (hlen : held.length = len.val) (hheld : StartsWith buf held) :
    Streams (len, buf) (bs ++ [Config.sentinel]) (0, bottomCells) (List.replicate bs.length .incomplete ++ [.complete])
      [cellsOf (held ++ bs ++ [Config.sentinel])] := by
  obtain ⟨buf', hs, hholds⟩ := streams_fill_to_seven buf h0 hbs
  have hseven : (held ++ bs).length = 7 := by simp; omega
  have hframe := ((hholds held hlen hheld).memWrite (i := 7) Config.sentinel hseven.symm).eq_cellsOf
    (by rw [List.length_append, hseven, List.length_singleton])
  rw [← hframe]
  exact hs.append (.single (assemble_complete buf'))

/-- The byte that makes eight ends the attempt, whatever it is. -/
theorem streamEnd_close {len : Fin 8} (buf : Cells) {bs : List Byte} (h0 : len ≠ 0) (hbs : bs.length = 8 - len.val) :
    streamEnd len buf bs = (0, bottomCells) := by
  rcases bs.eq_nil_or_concat' with rfl | ⟨xs, b, rfl⟩
  · rw [List.length_nil] at hbs
    omega
  · obtain ⟨buf', hs, -⟩ := streams_fill_to_seven (bs := xs) buf h0 (by simp at hbs; omega)
    rw [(hs.append (.single (b := b) rfl)).stop_eq]
    by_cases hb : b = Config.sentinel
    · rw [hb, assemble_complete]
    · rw [assemble_discard buf' hb]

/-- An open attempt whose eighth byte, and every byte after it, is not the sentinel is lost: the buffer is empty, and
the bytes after the seventh are discarded. -/
theorem streams_lose {len : Fin 8} (buf : Cells) {bs : List Byte} (h0 : len ≠ 0) (hlong : 7 - len.val < bs.length)
    (htail : ∀ b ∈ bs.drop (7 - len.val), b ≠ Config.sentinel) :
    ∃ buf', Streams (len, buf) bs (0, buf') (List.replicate (7 - len.val) .incomplete ++
      List.replicate (bs.length - (7 - len.val)) .discarded) [] := by
  obtain ⟨xs, c, cs, rfl, hxs⟩ : ∃ xs c cs, bs = xs ++ c :: cs ∧ xs.length = 7 - len.val :=
    ⟨bs.take (7 - len.val), bs[7 - len.val], bs.drop (7 - len.val + 1), by simp, by simp; omega⟩
  rw [← hxs, List.drop_left, List.forall_mem_cons] at htail
  obtain ⟨hc, hcs⟩ := htail
  obtain ⟨buf', hs, -⟩ := streams_fill_to_seven buf h0 hxs
  refine ⟨bottomCells, ?_⟩
  simpa [hxs, List.replicate_succ] using hs.append (.cons (assemble_discard buf' hc) (streams_reject _ hcs))

/-- Eight bytes with the sentinel at both ends are captured from the empty buffer (R116). -/
theorem streams_frame (buf : Cells) {xs : List Byte} (hxs : xs.length = 6) :
    Streams (0, buf) (Config.sentinel :: xs ++ [Config.sentinel]) (0, bottomCells)
      (List.replicate 7 .incomplete ++ [.complete]) [cellsOf (Config.sentinel :: xs ++ [Config.sentinel])] := by
  obtain ⟨buf', hstart, hheld⟩ := streams_start buf
  simpa [hxs, List.replicate_succ] using hstart.append (streams_complete (bs := xs) (by decide) (by simp [hxs]) rfl hheld)

/-- Every byte shows a result. -/
theorem streamResults_length (len : Fin 8) (buf : Cells) (bs : List Byte) :
    (streamResults len buf bs).length = bs.length := by
  induction bs generalizing len buf with
  | nil => rfl
  | cons b bs ih => exact congrArg (· + 1) (ih _ _)

/-! ### What completed frames are (R110, R115) -/

/-- An open attempt has the sentinel in cell 0, and keeps it there (R23). -/
theorem assemble_start_sentinel {len : Fin 8} {buf : Cells} (b : Byte)
    (h : len ≠ 0 → buf[Config.startOffset] = some Config.sentinel) :
    (assemble len buf b).len ≠ 0 → (assemble len buf b).buf[Config.startOffset] = some Config.sentinel := by
  have hkept := acceptByte_startIsSentinel (s := { State.reset with len, buf }) b h
  obtain ⟨hlen, hbuf, -⟩ := acceptByte_registers b { State.reset with len, buf }
  rwa [StartIsSentinel, hlen, hbuf] at hkept

/-- A frame completed from an attempt that began with the sentinel has it at both ends. -/
theorem assemble_frame_delimited {len : Fin 8} {buf : Cells} {b : Byte} {f : Cells}
    (h : len ≠ 0 → buf[Config.startOffset] = some Config.sentinel) (hf : (assemble len buf b).frame = some f) :
    f[Config.startOffset] = some Config.sentinel ∧ f[Config.endOffset] = some Config.sentinel := by
  obtain ⟨rfl, rfl⟩ := closes_of_assemble_res_complete
    ((assemble_frame_isSome_iff len buf b).mp (by rw [hf]; rfl))
  rw [assemble_complete] at hf
  cases hf
  exact ⟨(memWrite_get_other buf _ (by decide)).trans (h (by decide)), memWrite_get buf 7 _ 7 (by decide)⟩

/-- Every frame of a stream is delimited, its first attempt being open with the sentinel or not at all (R115). -/
theorem streamFrames_delimited {len : Fin 8} {buf : Cells} {bs : List Byte} {f : Cells}
    (h : len ≠ 0 → buf[Config.startOffset] = some Config.sentinel) (hf : f ∈ streamFrames len buf bs) :
    f[Config.startOffset] = some Config.sentinel ∧ f[Config.endOffset] = some Config.sentinel := by
  induction bs generalizing len buf with
  | nil => cases hf
  | cons b bs ih =>
    rcases List.mem_append.mp hf with hnow | hlater
    · exact assemble_frame_delimited h (Option.mem_toList.mp hnow)
    · exact ih (assemble_start_sentinel b h) hlater

/-- Settles O31: `streamFrames_delimited` for the two ends, `streams_frame` for any six bytes between. -/
theorem completedFramesAreDelimited : Obligations.CompletedFramesAreDelimited := by
  refine ⟨fun len buf bs f => streamFrames_delimited, fun buf x₁ x₂ x₃ x₄ x₅ x₆ => ?_⟩
  exact (streams_frame buf (xs := [x₁, x₂, x₃, x₄, x₅, x₆]) rfl).frames_eq ▸ List.mem_singleton_self _

/-- A stream from the empty buffer is a stream that empties it, then the bytes the open attempt holds. -/
theorem exists_open_attempt (buf : Cells) (bs : List Byte) :
    ∃ before held : List Byte, bs = before ++ held ∧ (streamEnd 0 buf before).1 = 0 ∧
      held.length = (streamEnd 0 buf bs).1.val ∧ StartsWith (streamEnd 0 buf bs).2 held ∧
      streamFrames 0 buf bs = streamFrames 0 buf before := by
  induction bs using List.reverseRecOn with
  | nil => exact ⟨[], [], rfl, rfl, rfl, nofun, rfl⟩
  | append_singleton bs b ih =>
    obtain ⟨before, held, rfl, hbefore, hlen, hheld, hframes⟩ := ih
    have hs := (Streams.of_stream 0 buf (before ++ held)).append (.single (b := b) rfl)
    by_cases h0 : (streamEnd 0 buf (before ++ held ++ [b])).1 = 0
    · exact ⟨before ++ held ++ [b], [], by simp, h0, by rw [h0]; rfl, nofun, rfl⟩
    · rw [hs.stop_eq] at h0
      obtain ⟨hlen', hbuf', hframe'⟩ := assemble_of_len_ne_zero h0
      refine ⟨before, held ++ [b], by simp, hbefore, ?_⟩
      rw [hs.stop_eq, hs.frames_eq, hlen', hbuf', hframe', hframes]
      exact ⟨by simp [hlen], hheld.memWrite b hlen.symm, by simp⟩

/-- The eight bytes that end on a COMPLETE are the frame (R110). -/
theorem streams_split_of_complete {buf : Cells} {bs : List Byte}
    (h : (streamResults 0 buf bs).getLast? = some .complete) :
    ∃ before window : List Byte, bs = before ++ window ∧ window.length = 8 ∧ (streamEnd 0 buf before).1 = 0 ∧
      streamEnd 0 buf bs = (0, bottomCells) ∧
      streamFrames 0 buf bs = streamFrames 0 buf before ++ [cellsOf window] := by
  rcases bs.eq_nil_or_concat' with rfl | ⟨cs, b, rfl⟩
  · cases h
  have hs := (Streams.of_stream 0 buf cs).append (.single (b := b) rfl)
  rw [hs.results_eq, List.getLast?_concat, Option.some_inj] at h
  obtain ⟨h7, rfl⟩ := closes_of_assemble_res_complete h
  obtain ⟨before, held, rfl, hbefore, hlen, hheld, hframes⟩ := exists_open_attempt buf cs
  rw [h7] at hlen
  refine ⟨before, held ++ [Config.sentinel], by simp, by simp [hlen], hbefore, ?_⟩
  rw [hs.stop_eq, hs.frames_eq, h7, assemble_complete, hframes]
  refine ⟨rfl, ?_⟩
  rw [← (hheld.memWrite (i := 7) Config.sentinel hlen.symm).eq_cellsOf (by simp [hlen])]
  rfl

/-- Each byte counts once: in a completed frame's eight, or in the attempt still open. -/
theorem streamFrames_length_le (len : Fin 8) (buf : Cells) (bs : List Byte) :
    8 * (streamFrames len buf bs).length + (streamEnd len buf bs).1.val ≤ len.val + bs.length := by
  induction bs generalizing len buf with
  | nil => simp [streamFrames, streamEnd]
  | cons b bs ih =>
    have hbyte : 8 * (assemble len buf b).frame.toList.length + (assemble len buf b).len.val ≤ len.val + 1 := by
      rcases assemble_cases len buf b with ⟨-, -, e⟩ | ⟨-, -, e⟩ | ⟨n, -, hn, e⟩ | ⟨h7, -, e⟩ | ⟨-, -, e⟩
      · simp [e]
      · simp [e]
      · simp [e, hn]
      · rw [e, h7]
        simp
      · simp [e]
    have hrest := ih (assemble len buf b).len (assemble len buf b).buf
    simp only [streamFrames, streamEnd, List.length_append, List.length_cons]
    omega

/-- Settles O35: `streams_split_of_complete` for the eight bytes, the bytes after them from the empty buffer, and
`streamFrames_length_le` for the bound. -/
theorem eachFrameNeedsEightBytes : Obligations.EachFrameNeedsEightBytes := by
  refine ⟨fun buf bs cs h => ?_, fun buf bs => ?_⟩
  · obtain ⟨before, window, hbs, hwindow, hbefore, hend, hframes⟩ := streams_split_of_complete h
    refine ⟨before, window, hbs, hwindow, hbefore, hend, ?_⟩
    rw [((Streams.of_stream 0 buf bs).append (.of_stream _ _ cs)).frames_eq, hframes, hend]
  · simpa using Nat.le_of_add_right_le (streamFrames_length_le 0 buf bs)

/-! ### Capture and loss of frames (R116 to R118) -/

/-- Eight bytes end on a COMPLETE only from the empty buffer: an open attempt ends before the last of them, and those
after its end are too few to complete anything. -/
theorem len_eq_zero_of_complete_on_eighth {len : Fin 8} {buf : Cells} {bs : List Byte} (hbs : bs.length = 8)
    (h : (streamResults len buf bs).getLast? = some .complete) : len = 0 := by
  by_contra h0
  obtain ⟨xs, ys, rfl, hxs⟩ : ∃ xs ys, bs = xs ++ ys ∧ xs.length = 8 - len.val :=
    ⟨bs.take (8 - len.val), bs.drop (8 - len.val), by simp, by simp; omega⟩
  rw [List.length_append] at hbs
  have hpos : 0 < len.val := Fin.pos_iff_ne_zero.mpr h0
  have hrest : streamResults 0 bottomCells ys ≠ [] := by
    rw [← List.length_pos_iff, streamResults_length]
    omega
  have hs := (Streams.of_stream len buf xs).append (.of_stream _ _ ys)
  rw [hs.results_eq, streamEnd_close buf h0 hxs, List.getLast?_append_of_ne_nil _ hrest] at h
  obtain ⟨before, window, rfl, hwindow, -⟩ := streams_split_of_complete h
  rw [List.length_append] at hbs
  omega

/-- Settles O32: a frame fed on an open attempt only ends it, and its remaining bytes are too few to complete anything. -/
theorem frameCapturedExactlyFromEmpty : Obligations.FrameCapturedExactlyFromEmpty := by
  rintro len buf x₁ x₂ x₃ x₄ x₅ x₆ F rfl
  have hcapture := streams_frame buf (xs := [x₁, x₂, x₃, x₄, x₅, x₆]) rfl
  refine ⟨?_, len_eq_zero_of_complete_on_eighth rfl, ?_⟩
  · rintro rfl
    exact ⟨hcapture.results_eq, hcapture.frames_eq, congrArg Prod.fst hcapture.stop_eq⟩
  · rintro rfl
    exact congrArg List.getLast? hcapture.results_eq

/-- Bytes all discarded from the empty buffer are not the sentinel. -/
theorem ne_sentinel_of_discarded {buf : Cells} {bs : List Byte}
    (h : streamResults 0 buf bs = List.replicate bs.length .discarded) : ∀ b ∈ bs, b ≠ Config.sentinel := by
  induction bs with
  | nil => nofun
  | cons b bs ih =>
    obtain ⟨hres, hrest⟩ := List.cons.inj h
    have hb : b ≠ Config.sentinel := by
      rintro rfl
      cases hres
    rw [assemble_reject buf hb] at hrest
    exact List.forall_mem_cons.mpr ⟨hb, ih hrest⟩

/-- Seven or more bytes other than the sentinel leave the buffer empty, whatever was in it, and complete nothing. -/
theorem streams_drain (len : Fin 8) (buf : Cells) {bs : List Byte} (hlong : 7 ≤ bs.length)
    (hbs : ∀ b ∈ bs, b ≠ Config.sentinel) : ∃ buf' rs, Streams (len, buf) bs (0, buf') rs [] := by
  by_cases h0 : len = 0
  · subst h0
    exact ⟨buf, _, streams_reject buf hbs⟩
  · obtain ⟨buf', hs⟩ := streams_lose buf h0 (by omega) fun b hb => hbs b (List.mem_of_mem_drop hb)
    exact ⟨buf', _, hs⟩

/-- Settles O33: from the empty buffer all seven bytes are rejected; an open attempt is filled and then lost; and a frame
after bytes that leave the buffer empty is captured. -/
theorem sevenNonSentinelBytesDrain : Obligations.SevenNonSentinelBytesDrain := by
  refine ⟨fun len buf bs h7 hbs => ⟨?_, ?_, fun h0 => ?_⟩, fun buf bs h6 _ => ?_, ?_⟩
  · obtain ⟨buf', rs, hs⟩ := streams_drain len buf h7.ge hbs
    exact congrArg Prod.fst hs.stop_eq
  · rintro rfl
    exact h7 ▸ (streams_reject buf hbs).results_eq
  · have hpos : 0 < len.val := Fin.pos_iff_ne_zero.mpr h0
    obtain ⟨buf', hs⟩ := streams_lose buf h0 (by omega) fun b hb => hbs b (List.mem_of_mem_drop hb)
    rw [h7, Nat.sub_sub_self (by omega)] at hs
    exact hs.results_eq
  · obtain ⟨buf', hs, -⟩ := streams_fill_to_seven buf (len := 1) (by decide) h6
    exact congrArg Prod.fst hs.stop_eq
  · rintro len buf bs F x₁ x₂ x₃ x₄ x₅ x₆ rfl hdrained
    obtain ⟨buf', rs, hs⟩ : ∃ buf' rs, Streams (len, buf) bs (0, buf') rs [] := by
      rcases hdrained with ⟨hlong, hbs⟩ | ⟨rfl, hres⟩
      · exact streams_drain len buf hlong hbs
      · exact ⟨buf, _, streams_reject buf (ne_sentinel_of_discarded hres)⟩
    exact (hs.append (streams_frame buf' (xs := [x₁, x₂, x₃, x₄, x₅, x₆]) rfl)).frames_eq

/-- What a gap of at most six bytes completes when an attempt is opened before it: itself between two sentinels, and
only if it has six bytes. -/
def gapFrames (gap : List Byte) : List Cells :=
  if gap.length = 6 then [cellsOf ([Config.sentinel] ++ gap ++ [Config.sentinel])] else []

/-- With an attempt opened by a frame's end sentinel, the gap, the next frame's start sentinel and its six bytes leave the
buffer empty: the attempt ends inside that frame or at its start. -/
theorem streams_gap_and_frame {buf : Cells} {gap payload : List Byte} (hbuf : StartsWith buf [Config.sentinel])
    (hgap : gap.length ≤ 6) (hlen : payload.length = 6) (hpayload : ∀ b ∈ payload, b ≠ Config.sentinel) :
    ∃ buf' rs, Streams (1, buf) (gap ++ [Config.sentinel] ++ payload) (0, buf') rs (gapFrames gap) := by
  by_cases hsix : gap.length = 6
  · have hs := (streams_complete (len := 1) (bs := gap) (by decide) (by simp [hsix]) rfl hbuf).append
      (streams_reject _ hpayload)
    rw [gapFrames, if_pos hsix]
    exact ⟨_, _, hs⟩
  · obtain ⟨buf', hs⟩ := streams_lose (len := 1) buf (bs := gap ++ [Config.sentinel] ++ payload) (by decide)
      (by simp; omega) fun b hb => by
        rw [List.drop_append, List.drop_eq_nil_of_le (by simp; omega)] at hb
        exact hpayload b (List.mem_of_mem_drop hb)
    rw [gapFrames, if_neg hsix]
    exact ⟨buf', _, hs⟩

/-- So, frame after frame, the stream stays one sentinel out of step (R118). -/
theorem streams_gaps {G : Nat} {buf : Cells} {frames : List (List Byte × List Byte)}
    (hbuf : StartsWith buf [Config.sentinel]) (hG : G ≤ 6)
    (hframes : ∀ p ∈ frames, p.1.length = G ∧ p.2.length = 6 ∧ ∀ b ∈ p.2, b ≠ Config.sentinel) :
    ∃ buf' rs, Streams (1, buf)
      (frames.flatMap fun p => p.1 ++ [Config.sentinel] ++ p.2 ++ [Config.sentinel]) (1, buf') rs
      (frames.flatMap fun p => gapFrames p.1) := by
  induction frames generalizing buf with
  | nil => exact ⟨buf, [], .nil _⟩
  | cons p frames ih =>
    obtain ⟨⟨hgap, hlen, hpayload⟩, hrest⟩ := List.forall_mem_cons.mp hframes
    obtain ⟨buf₁, rs₁, h₁⟩ := streams_gap_and_frame hbuf (hgap.trans_le hG) hlen hpayload
    obtain ⟨buf₂, h₂, hbuf₂⟩ := streams_start buf₁
    obtain ⟨buf₃, rs₃, h₃⟩ := ih hbuf₂ hrest
    exact ⟨buf₃, _, by simpa using (h₁.append h₂).append h₃⟩

/-- Settles O34: the head is rejected, its end sentinel opens an attempt, and `streams_gaps` goes on from there. -/
theorem shortGapsNeverSynchronize : Obligations.ShortGapsNeverSynchronize := by
  rintro G buf head frames hG hhead hframes stream rfl
  obtain ⟨buf₁, h₁, hbuf₁⟩ := streams_start buf
  obtain ⟨buf₂, rs, h₂⟩ := streams_gaps hbuf₁ hG fun p hp => by
    obtain ⟨hgap, -, hlen, hpayload⟩ := hframes p hp
    exact ⟨hgap, hlen, hpayload⟩
  have hs := ((streams_reject buf hhead).append h₁).append h₂
  have hgap {p} (hp : p ∈ frames) : p.1.length = G := by
    obtain ⟨hgap, -⟩ := hframes p hp
    exact hgap
  refine ⟨congrArg Prod.fst hs.stop_eq, fun hlt => hs.frames_eq.trans ?_, fun hsix => hs.frames_eq.trans ?_⟩
  · exact List.flatMap_eq_nil_iff.mpr fun p hp => if_neg (hgap hp ▸ hlt.ne)
  · rw [List.map_eq_flatMap]
    exact List.flatMap_congr fun p hp => if_pos ((hgap hp).trans hsix)

/-! ### One result per byte (R119) -/

theorem none_notMem_streamResults (len : Fin 8) (buf : Cells) (bs : List Byte) :
    ResCode.none ∉ streamResults len buf bs := by
  induction bs generalizing len buf with
  | nil => nofun
  | cons b bs ih => exact List.not_mem_cons_of_ne_of_not_mem (assemble_res_ne_none len buf b).symm (ih _ _)

/-- Results without a NONE are counted by the three other codes. -/
theorem count_results {rs : List ResCode} (h : ResCode.none ∉ rs) :
    rs.count .incomplete + rs.count .complete + rs.count .discarded = rs.length := by
  induction rs with
  | nil => rfl
  | cons r rs ih =>
    have hrest := ih (List.not_mem_of_not_mem_cons h)
    cases r with
    | none => exact absurd List.mem_cons_self h
    | incomplete | complete | discarded => simp; omega

/-- A stream completes one frame for each COMPLETE it shows. -/
theorem streamFrames_length (len : Fin 8) (buf : Cells) (bs : List Byte) :
    (streamFrames len buf bs).length = (streamResults len buf bs).count .complete := by
  induction bs generalizing len buf with
  | nil => rfl
  | cons b bs ih =>
    have hbyte := assemble_frame_isSome_iff len buf b
    rw [streamFrames, streamResults, List.length_append, ih, List.count_cons, Nat.add_comm]
    cases hf : (assemble len buf b).frame with
    | none =>
      have hres : (assemble len buf b).res ≠ .complete := by simpa [hf] using hbyte
      simp [hres]
    | some f =>
      have hres : (assemble len buf b).res = .complete := by simpa [hf] using hbyte
      simp [hres]

/-- Settles O36: no result is NONE and there are as many as bytes; a byte completes a frame when it shows COMPLETE. -/
theorem oneResultPerAcceptedByte : Obligations.OneResultPerAcceptedByte :=
  ⟨fun len buf bs => ⟨(count_results (none_notMem_streamResults len buf bs)).trans (streamResults_length len buf bs),
    none_notMem_streamResults len buf bs, streamFrames_length len buf bs⟩, fun _ _ _ => exec_resCode_of_noAcceptedByte⟩

end Sys2Proof.Machine
end

section
/-! PROOFS. Decode: the fields, the CRC pair and flag, and the class of a held frame (R131 to R135), TAKE (R137), and the
outputs of a completed frame (R136, R139). -/

namespace Sys2Proof.Machine

/-! ### Field outputs and type class (R131, R135) -/

/-- Settles O45: each field output of a held frame is its cell. -/
theorem fieldOutputs : Obligations.FieldOutputs :=
  fun _ _ _ _ _ _ _ _ _ hv hf =>
    ⟨outType_of_held hv hf, outDispid_of_held hv hf, outQuery_of_held hv hf, outData_of_held hv hf⟩

/-- The reserved class is given to no type code (R66). -/
theorem typeClass_ne_reserved (t : Byte) : typeClass t ≠ 0b11#2 := by
  unfold typeClass
  split
  · decide
  · split <;> decide

/-- Settles O48: the class is `typeClass` of the type output, in every state. -/
theorem typeClassOutput : Obligations.TypeClassOutput := by
  refine ⟨fun s t ht => ?_, fun s hclass => ?_⟩
  · rw [outTypeClass, ht]; rfl
  · obtain ⟨t, -, ht⟩ := Option.map_eq_some_iff.mp hclass
    exact typeClass_ne_reserved t ht

/-! ### The CRC pair and its flag (R132 to R134) -/

/-- The big-endian pair as a number: the low byte fills the eight low bits, so the OR of R43 is a sum. -/
theorem bigEndian16_toNat (hi lo : Byte) : (bigEndian16 hi lo).toNat = 256 * hi.toNat + lo.toNat := by
  have hhigh : (zext16 hi <<< 8).toNat = 2 ^ 8 * hi.toNat := by
    rw [zext16_shiftLeft_eight, BitVec.toNat_ofNat]
    omega
  have hlow : (zext16 lo).toNat = lo.toNat := BitVec.toNat_setWidth_of_le (by decide)
  rw [bigEndian16, BitVec.toNat_or, hhigh, hlow, ← Nat.two_pow_add_eq_or_of_lt lo.isLt]

/-- The pair determines both bytes. -/
theorem bigEndian16_inj {hi lo hi' lo' : Byte} : bigEndian16 hi lo = bigEndian16 hi' lo' ↔ hi = hi' ∧ lo = lo' := by
  simp only [← BitVec.toNat_inj, bigEndian16_toNat]
  omega

/-- Settles O46: the three CRC outputs of a held frame, the asserted one also as a number. -/
theorem crcOutputs : Obligations.CrcOutputs :=
  fun _ _ _ _ _ _ _ _ _ hv hf =>
    ⟨_, outCrcAsserted_of_held hv hf, bigEndian16_toNat _ _, outCrcComputed_of_held hv hf, outCrcValid_of_held hv hf⟩

/-- Settles O47: the CRC asserted by the first frame is the one both compute, and other CRC bytes assert another. -/
theorem corruptedCrcBytesDetected : Obligations.CorruptedCrcBytesDetected := by
  intro s s' f₀ f₁ f₂ f₃ f₄ f₅ f₆ f₇ g₀ g₅ g₆ g₇ hv hv' hf hf' hvalid hbytes
  have hcrc : bigEndian16 f₅ f₆ = crc16 [f₁, f₂, f₃, f₄] := by
    simpa [outCrcValid_of_held hv hf] using hvalid
  have hother : bigEndian16 g₅ g₆ ≠ bigEndian16 f₅ f₆ := by
    rw [ne_eq, bigEndian16_inj]
    exact not_and_or.mpr hbytes
  refine ⟨?_, (outCrcComputed_of_held hv' hf').trans (outCrcComputed_of_held hv hf).symm, ?_,
    (outDispid_of_held hv' hf').trans (outDispid_of_held hv hf).symm,
    (outType_of_held hv' hf').trans (outType_of_held hv hf).symm,
    (outTypeClass_of_held hv' hf').trans (outTypeClass_of_held hv hf).symm,
    (outQuery_of_held hv' hf').trans (outQuery_of_held hv hf).symm,
    (outData_of_held hv' hf').trans (outData_of_held hv hf).symm⟩
  · rw [outCrcValid_of_held hv' hf', ← hcrc, beq_eq_false_iff_ne.mpr hother]
  · rw [outCrcAsserted_of_held hv' hf', outCrcAsserted_of_held hv hf]
    exact mt Option.some.inj hother

/-! ### TAKE (R137) -/

/-- Settles O23: TAKE and FEED_TAKE take a pending reading; with none TAKE is IDLE. -/
theorem takeResult : Obligations.TakeResult := by
  refine ⟨fun v hr hv ho => by simp [decode, hr, hv, ho], fun s => ⟨fun hv => ?_, fun hv => ?_, ?_⟩⟩
  · refine ⟨?_, fun b => exec_feedTake_of_pending hv⟩
    rw [exec_take, takeReading_of_pending hv]; rfl
  · rw [exec_take, takeReading_of_empty hv]
    exact ⟨rfl, rfl⟩
  · rintro ⟨-, -, -, -, hnoAttempt, -⟩
    exact hnoAttempt

/-! ### Every completed frame is presented (R136, R139) -/

/-- Eight cells that each hold a byte are the cells of eight bytes. -/
theorem exists_eq_cellsOf {f : Cells} (h : ∀ i : Fin 8, f[i].isSome = true) :
    ∃ f₀ f₁ f₂ f₃ f₄ f₅ f₆ f₇ : Byte, f = cellsOf [f₀, f₁, f₂, f₃, f₄, f₅, f₆, f₇] := by
  choose b hb using fun i => Option.isSome_iff_exists.mp (h i)
  refine ⟨b 0, b 1, b 2, b 3, b 4, b 5, b 6, b 7, Vector.toList_inj.mp ?_⟩
  rw [cells_toList, cells_toList]
  simp only [hb, cellsOf_get]
  rfl

/-- While a whole frame is held every output is defined, whatever its bytes. -/
theorem outputs_isSome_of_held {s : State} (hv : s.outValid = true) (hf : ∀ i : Fin 8, s.outFrame[i].isSome = true) :
    (outFrameBus s).isSome ∧ (outType s).isSome ∧ (outDispid s).isSome ∧ (outQuery s).isSome ∧ (outData s).isSome ∧
      (outCrcAsserted s).isSome ∧ (outCrcComputed s).isSome ∧ (outCrcValid s).isSome ∧ (outTypeClass s).isSome := by
  obtain ⟨f₀, f₁, f₂, f₃, f₄, f₅, f₆, f₇, hf⟩ := exists_eq_cellsOf hf
  simp [outFrameBus_of_held hv hf, outType_of_held hv hf, outDispid_of_held hv hf, outQuery_of_held hv hf,
    outData_of_held hv hf, outCrcAsserted_of_held hv hf, outCrcComputed_of_held hv hf, outCrcValid_of_held hv hf,
    outTypeClass_of_held hv hf]

/-- The sentinel as eighth byte makes the buffer, with it in the last cell, the pending frame (R106, R111). -/
theorem acceptByte_complete {s : State} (h7 : s.len = 7) :
    (acceptByte Config.sentinel s).outValid = true ∧ (acceptByte Config.sentinel s).resCode = .complete ∧
      (acceptByte Config.sentinel s).outFrame = memWrite s.buf 7 Config.sentinel := by
  have ha : assemble s.len s.buf Config.sentinel =
      ⟨0, bottomCells, .complete, some (memWrite s.buf 7 Config.sentinel)⟩ := by rw [h7, assemble_complete]
  obtain ⟨-, -, hcomplete, -⟩ := acceptByte_registers Config.sentinel s
  rw [ha] at hcomplete
  obtain ⟨hvalid, hframe⟩ := hcomplete rfl
  exact ⟨hvalid, by rw [acceptByte_resCode, ha], (Option.some.inj hframe).symm⟩

/-- Seven buffered bytes and one more in the last cell fill every cell. -/
theorem memWrite_last_isSome {s : State} (hfilled : BufferFilled s) (h7 : s.len = 7) (b : Byte) (i : Fin 8) :
    (memWrite s.buf 7 b)[i].isSome = true := by
  by_cases hi : i = 7
  · simp [hi]
  · rw [memWrite_get_other s.buf b (Ne.symm hi), hfilled i, h7]
    exact decide_eq_true (by omega)

/-- Settles O50: the byte is accepted and completes the frame, all of whose cells hold a byte by the invariant; no output
asks for a valid CRC or a known type. -/
theorem everyCompletedFramePresented : Obligations.EveryCompletedFramePresented := by
  rintro s i ⟨hfilled, -⟩ hv h7 hi
  obtain ⟨hvalid, hres, hframe⟩ := acceptByte_complete h7
  have hcells (j : Fin 8) : (acceptByte Config.sentinel s).outFrame[j].isSome = true := by
    rw [hframe]
    exact memWrite_last_isSome hfilled h7 _ j
  exact ⟨_, exec_of_empty hi hv, hvalid, hres, outputs_isSome_of_held hvalid hcells⟩

end Sys2Proof.Machine
end

section
/-! PROOFS. Host: the transport that holds its bytes (R150), the labels (R153) and the rendered frame (R154). -/

namespace Sys2Proof.Machine

/-! ### A transport that holds its bytes (R150) -/

@[simp] theorem rst_holdingVector (offers ready : Bool) (bs : List Byte) :
    InputVector.rst (holdingVector offers ready bs) = false := by
  cases bs <;> exact rst_packVector _ _ _ _

/-- Only the byte that the transport holds next can be accepted. -/
theorem head?_of_acceptedByte_holdingVector {offers ready : Bool} {bs : List Byte} {s : State} {b : Byte}
    (h : acceptedByte (holdingVector offers ready bs) s = some b) : bs.head? = some b := by
  cases bs with
  | nil => simp [acceptedByte, holdingVector] at h
  | cons c cs =>
    obtain ⟨-, rfl⟩ : _ ∧ c = b := by simpa [acceptedByte, holdingVector] using h
    rfl

/-- What the transport still holds after one step. -/
def heldAfter (v : InputVector) (bs : List Byte) (s : State) : List Byte :=
  if (acceptedByte v s).isSome then bs.tail else bs

/-- One step splits the bytes held before it into the one accepted, if any, and those held after it. -/
theorem accepted_append_heldAfter (offers ready : Bool) (bs : List Byte) (s : State) :
    (acceptedByte (holdingVector offers ready bs) s).toList ++ heldAfter (holdingVector offers ready bs) bs s = bs := by
  cases hacc : acceptedByte (holdingVector offers ready bs) s with
  | none => simp [heldAfter, hacc]
  | some b => simpa [heldAfter, hacc] using List.cons_head?_tail (head?_of_acceptedByte_holdingVector hacc)

theorem holdingRun_cons {offers ready : Bool} {bs : List Byte} {s t : State} (cs : List (Bool × Bool))
    (h : exec (decode (holdingVector offers ready bs)) s = .next t) :
    holdingRun ((offers, ready) :: cs) bs s =
      (holdingVector offers ready bs :: (holdingRun cs (heldAfter (holdingVector offers ready bs) bs s) t).1,
        (holdingRun cs (heldAfter (holdingVector offers ready bs) bs s) t).2) := by
  simp [holdingRun, h, heldAfter]

/-- The bytes the block accepts and those still held make up the stream. -/
theorem accepted_append_held (cs : List (Bool × Bool)) (bs : List Byte) (s : State) :
    runAccepted (holdingRun cs bs s).1 s ++ (holdingRun cs bs s).2 = bs := by
  induction cs generalizing bs s with
  | nil => rfl
  | cons c cs ih =>
    obtain ⟨t, ht⟩ := exec_next (decode (holdingVector c.1 c.2 bs)) s
    rw [holdingRun_cons cs ht]
    simp only [runAccepted, ht, List.append_assoc, ih]
    exact accepted_append_heldAfter c.1 c.2 bs s

/-- The transport drives no reset. -/
theorem rst_of_mem_holdingRun (cs : List (Bool × Bool)) (bs : List Byte) (s : State) :
    ∀ v ∈ (holdingRun cs bs s).1, InputVector.rst v = false := by
  induction cs generalizing bs s with
  | nil => nofun
  | cons c cs ih =>
    obtain ⟨t, ht⟩ := exec_next (decode (holdingVector c.1 c.2 bs)) s
    rw [holdingRun_cons cs ht]
    exact List.forall_mem_cons.mpr ⟨rst_holdingVector _ _ _, ih _ t⟩

/-- A run shows one result other than NONE for each byte accepted (R119), whatever is driven. -/
theorem countP_runShown (vs : List InputVector) (s : State) :
    ((runShown vs s).countP fun shown => shown.1 != .none) = (runAccepted vs s).length := by
  induction vs generalizing s with
  | nil => rfl
  | cons v vs ih =>
    cases hacc : acceptedByte v s with
    | none =>
      obtain ⟨t, ht⟩ := exec_next (decode v) s
      simp [runShown, runAccepted, ht, hacc, ih, exec_resCode_of_noAcceptedByte hacc ht]
    | some b =>
      simp [runShown, runAccepted, exec_of_acceptedByte hacc, hacc, ih, acceptByte_resCode, assemble_res_ne_none,
        Nat.add_comm]

/-- Settles O37: the stream is the bytes accepted and then those held; there is one result for each byte accepted, and
without a reset the results are the source's on them. -/
theorem heldBytesAreNeverLost : Obligations.HeldBytesAreNeverLost := by
  refine ⟨fun choices stream s vs held hrun => ?_, fun choices stream s buffer vs held _ hr hrun => ?_⟩
  all_goals
    have hsplit := accepted_append_held choices stream s
    rw [hrun] at hsplit
  · rw [countP_runShown, ← hsplit, List.drop_left]
  · have hrst := rst_of_mem_holdingRun choices stream s
    rw [hrun] at hrst
    exact ⟨_, hsplit.symm, rfl, runShown_refines_feedBytes vs hr hrst⟩

/-! ### Labels and the rendered frame (R153, R154) -/

/-- Settles O52: the three codes and the reserved one, by `label`'s cases. -/
theorem labelOfClass : Obligations.LabelOfClass := ⟨rfl, rfl, rfl, rfl, rfl, rfl, rfl⟩

/-- A digit is the one at its place in the list of uppercase digits. -/
theorem digits_getElem? (n : BitVec 4) : "0123456789ABCDEF".toList[n.toNat]? = some (hexDigit n) := by
  revert n
  decide

/-- A byte's two digits are those of its quotient and its remainder by 16. -/
theorem hexByte_digits (b : Byte) :
    "0123456789ABCDEF".toList[b.toNat / 16]? = some (hexDigit (b.extractLsb' 4 4)) ∧
      "0123456789ABCDEF".toList[b.toNat % 16]? = some (hexDigit (b.extractLsb' 0 4)) := by
  have hhigh : (b.extractLsb' 4 4).toNat = b.toNat / 16 := by
    rw [BitVec.extractLsb'_toNat, Nat.shiftRight_eq_div_pow]
    omega
  have hlow : (b.extractLsb' 0 4).toNat = b.toNat % 16 := by
    rw [BitVec.extractLsb'_toNat, Nat.shiftRight_zero]
  rw [← hhigh, ← hlow]
  exact ⟨digits_getElem? _, digits_getElem? _⟩

/-- Three characters for each byte but the last one, which has no space after it. -/
theorem renderChars_length (bs : List Byte) : (renderChars bs).length = 3 * bs.length - 1 := by
  induction bs using renderChars.induct with
  | case1 => rfl
  | case2 b => rfl
  | case3 b c bs ih => simp only [renderChars, hexByte, List.length_append, List.length_cons, ih]; simp; omega

/-- Byte `i` is rendered at places 3i and 3i+1: a byte that is not the last one takes three characters, by `rfl`. -/
theorem renderChars_digits {bs : List Byte} {i : Nat} {b : Byte} (h : bs[i]? = some b) :
    (renderChars bs)[3 * i]? = some (hexDigit (b.extractLsb' 4 4)) ∧
      (renderChars bs)[3 * i + 1]? = some (hexDigit (b.extractLsb' 0 4)) := by
  induction bs using renderChars.induct generalizing i with
  | case1 => simp at h
  | case2 c =>
    obtain ⟨rfl, rfl⟩ : i = 0 ∧ c = b := by simpa [List.getElem?_cons] using h
    exact ⟨rfl, rfl⟩
  | case3 c c' cs ih =>
    cases i with
    | zero =>
      cases h
      exact ⟨rfl, rfl⟩
    | succ i => exact ih h

/-- A space follows every byte but the last one. -/
theorem renderChars_space {bs : List Byte} {i : Nat} (h : i + 1 < bs.length) :
    (renderChars bs)[3 * i + 2]? = some ' ' := by
  induction bs using renderChars.induct generalizing i with
  | case1 => simp at h
  | case2 c => simp at h
  | case3 c c' cs ih =>
    cases i with
    | zero => rfl
    | succ i => exact ih (Nat.lt_of_succ_lt_succ h)

/-- Settles O53: the places by induction on the bytes, the digits by their places in the digit list. -/
theorem renderedFrameForm : Obligations.RenderedFrameForm := by
  refine ⟨rfl, fun bs hbs => ⟨String.toList_ofList, by rw [renderChars_length, hbs], fun i b hb => ?_, fun i hi => ?_⟩⟩
  · obtain ⟨hhigh, hlow⟩ := hexByte_digits b
    rw [hhigh, hlow]
    exact renderChars_digits hb
  · exact renderChars_space (by omega)

end Sys2Proof.Machine
end

section
/-! PROOFS. Host: a reading is served (R151, R152, R155, R156), a byte is processed (R157), and the same frame fed twice
(R158). -/

namespace Sys2Proof.Machine

/-! ### The invariant over an accepted byte and a take -/

/-- Storing a byte at the next place fills one cell more. -/
theorem memWrite_filled {f : Cells} {len n : Fin 8} (b : Byte) (hf : ∀ i : Fin 8, f[i].isSome = decide (i < len))
    (hn : n.val = len.val + 1) (i : Fin 8) : (memWrite f len b)[i].isSome = decide (i < n) := by
  by_cases hi : i = len
  · subst hi
    simp [Fin.lt_def, hn]
  · rw [memWrite_get_other f b (Ne.symm hi), hf i]
    exact decide_eq_decide.mpr (by omega)

theorem acceptByte_bufferFilled {s : State} (b : Byte) (hs : BufferFilled s) : BufferFilled (acceptByte b s) := by
  rcases acceptByte_cases b s with ⟨-, -, e⟩ | ⟨h0, -, e⟩ | ⟨n, -, hn, e⟩ | ⟨-, -, e⟩ | ⟨-, -, e⟩ <;> rw [e]
  · exact hs
  · exact memWrite_filled b (fun i => h0 ▸ hs i) rfl
  · exact memWrite_filled b hs hn
  · intro i
    simp
  · intro i
    simp

/-- A completed frame is a filled buffer that began with the sentinel, closed by another one (R106, R115). -/
theorem acceptByte_frameHeld {s : State} (b : Byte) (hfilled : BufferFilled s) (hstart : StartIsSentinel s)
    (hheld : FrameHeld s) (hdelimited : FrameDelimited s) :
    FrameHeld (acceptByte b s) ∧ FrameDelimited (acceptByte b s) := by
  rcases acceptByte_cases b s with ⟨-, -, e⟩ | ⟨-, -, e⟩ | ⟨n, -, -, e⟩ | ⟨h7, hb, e⟩ | ⟨-, -, e⟩ <;> rw [e]
  · exact ⟨hheld, hdelimited⟩
  · exact ⟨hheld, hdelimited⟩
  · exact ⟨hheld, hdelimited⟩
  · have hfirst : s.buf[Config.startOffset] = some Config.sentinel := hstart (by simp [h7])
    refine ⟨memWrite_last_isSome hfilled h7 b, fun _ => ⟨?_, ?_⟩⟩
    · exact (memWrite_get_other s.buf b (by decide)).trans hfirst
    · rw [hb]
      exact memWrite_get s.buf 7 _ 7 (by decide)
  · exact ⟨hheld, hdelimited⟩

/-- After an accepted byte an attempt is open, a reading is pending, or neither, as `res_code` says (R25). -/
theorem acceptByte_resultAgrees {s : State} (b : Byte) (hv : s.outValid = false) :
    NoAttemptWhilePending (acceptByte b s) ∧ ResultAgrees (acceptByte b s) := by
  rcases acceptByte_cases b s with ⟨h0, -, e⟩ | ⟨-, -, e⟩ | ⟨n, -, hn, e⟩ | ⟨-, -, e⟩ | ⟨-, -, e⟩ <;> rw [e]
  · exact ⟨fun _ => h0, nofun, nofun, fun _ => ⟨h0, hv⟩⟩
  · exact ⟨fun h => absurd h (by simp [hv]), fun _ => one_ne_zero, nofun, nofun⟩
  · have hne : n ≠ 0 := by
      rintro rfl
      simp at hn
    exact ⟨fun h => absurd h (by simp [hv]), fun _ => hne, nofun, nofun⟩
  · exact ⟨fun _ => rfl, nofun, fun _ => rfl, nofun⟩
  · exact ⟨fun _ => rfl, nofun, nofun, fun _ => ⟨rfl, hv⟩⟩

theorem acceptByte_blockInv {s : State} (b : Byte) (hs : BlockInv s) (hv : s.outValid = false) :
    BlockInv (acceptByte b s) := by
  obtain ⟨hfilled, hstart, hheld, hdelimited, -, -⟩ := hs
  obtain ⟨hheld', hdelimited'⟩ := acceptByte_frameHeld b hfilled hstart hheld hdelimited
  obtain ⟨hnoAttempt, hagrees⟩ := acceptByte_resultAgrees b hv
  exact ⟨acceptByte_bufferFilled b hfilled, acceptByte_startIsSentinel b hstart, hheld', hdelimited', hnoAttempt,
    hagrees⟩

theorem takeReading_blockInv {s : State} (hs : BlockInv s) (hv : s.outValid = true) : BlockInv (takeReading s) := by
  obtain ⟨hfilled, hstart, -, -, -, -⟩ := hs
  rw [takeReading_of_pending hv]
  exact ⟨hfilled, hstart, fun i => by simp, nofun, nofun, nofun, nofun, nofun⟩

@[simp] theorem takeReading_outValid (s : State) : (takeReading s).outValid = false := by
  cases hv : s.outValid <;> simp [takeReading, hv]

@[simp] theorem takeReading_inputs (s : State) : (takeReading s).inputs = s.inputs := by
  cases hv : s.outValid <;> simp [takeReading, hv]

@[simp] theorem takeReading_len (s : State) : (takeReading s).len = s.len := by
  cases hv : s.outValid <;> simp [takeReading, hv]

/-- A vector that takes the reading runs a take, whether it is TAKE or FEED_TAKE. -/
theorem exec_of_taken {v : InputVector} {s : State} (h : takesReading v s = true) :
    exec (decode v) s = .next (takeReading s) := by
  obtain ⟨hv, hi | ⟨b, hi⟩⟩ := takesReading_iff.mp h
  · rw [hi, exec_take]
  · rw [hi, exec_feedTake_of_pending hv]

/-- The host can sample every pending reading (R136). -/
theorem exists_sampleReading_of_frameHeld {s : State} (hheld : FrameHeld s) (hv : s.outValid = true) :
    ∃ r, sampleReading s = .next r := by
  obtain ⟨f₀, f₁, f₂, f₃, f₄, f₅, f₆, f₇, hf⟩ := exists_eq_cellsOf fun i => (hheld i).trans hv
  exact ⟨_, sampledReadingIsSourceDecode s _ _ _ _ _ _ _ _ hv hf⟩

section
variable {Store SensorId Err : Type} (env : HostEnv Store SensorId Err)

/-! ### The persistence calls of one reading (R152, R156) -/

section Persistence
variable {env} {r : DecodedReading} {x : SensorId} {e : Err} {st st₁ st₂ : Store}

theorem recordStep_of_ok (before : List (HostAction SensorId Err))
    (hrecord : env.recordReading x r.query r.data r.crcValid r.rawFrame st₁ = (.ok (), st)) :
    recordStep env r x before st₁ = ⟨before ++ [.record x r.query r.data r.crcValid r.rawFrame], none, st⟩ := by
  simp [recordStep, hrecord]

theorem recordStep_of_error (before : List (HostAction SensorId Err))
    (hrecord : env.recordReading x r.query r.data r.crcValid r.rawFrame st₁ = (.error e, st)) :
    recordStep env r x before st₁ = ⟨before ++ [.record x r.query r.data r.crcValid r.rawFrame], some e, st⟩ := by
  simp [recordStep, hrecord]

theorem persist_of_find_error (hfind : env.findSensorByDeviceId r.dispId st₁ = (.error e, st)) :
    persist env r st₁ = ⟨[.find r.dispId], some e, st⟩ := by
  simp [persist, hfind]

theorem persist_of_found (hfind : env.findSensorByDeviceId r.dispId st₁ = (.ok (some x), st)) :
    persist env r st₁ = recordStep env r x [.find r.dispId] st := by
  simp [persist, hfind]

theorem persist_of_create_error (hfind : env.findSensorByDeviceId r.dispId st₁ = (.ok none, st₂))
    (hcreate : env.createSensor r.dispId r.type (env.describeType r.typeLabel) st₂ = (.error e, st)) :
    persist env r st₁ =
      ⟨[.find r.dispId, .create r.dispId r.type (env.describeType r.typeLabel)], some e, st⟩ := by
  simp [persist, hfind, hcreate]

theorem persist_of_created (hfind : env.findSensorByDeviceId r.dispId st₁ = (.ok none, st₂))
    (hcreate : env.createSensor r.dispId r.type (env.describeType r.typeLabel) st₂ = (.ok x, st)) :
    persist env r st₁ =
      recordStep env r x [.find r.dispId, .create r.dispId r.type (env.describeType r.typeLabel)] st := by
  simp [persist, hfind, hcreate]

variable (env r e) in
/-- After a failed call: the event, where the environment has one, and the report (log entry 10). -/
theorem afterPersistence_some : afterPersistence env r (some e) =
    (if env.eventAfterFailure then [.event r.dispId r.typeLabel r.data r.crcValid] else []) ++ [.reportFailure e] := by
  cases h : env.eventAfterFailure <;> simp [afterPersistence, readingEvent, h]

end Persistence

/-! ### One reading, processed and taken -/

/-- What every way of serving a pending reading comes to: it is processed unless it was before, then it is taken. -/
def processAndTake (y : System Store SensorId Err) : Result (System Store SensorId Err) :=
  andThen (if y.processed then .next y else processReading env y) fun y₁ =>
    .next { y₁ with block := takeReading y.block, log := y₁.log ++ [.take], processed := false }

theorem serveReading_eq_processAndTake (p : TakePlan) {y : System Store SensorId Err} (hv : y.block.outValid = true) :
    serveReading env p y = processAndTake env y :=
  serveReading_of_pending env p hv

/-- Any cycle whose edge takes the reading serves it, whatever else is driven. -/
theorem hostCycle_eq_processAndTake {c : HostCycle} {y : System Store SensorId Err}
    (h : takesReading c.vector y.block = true) : hostCycle env c y = processAndTake env y := by
  obtain ⟨hv, -⟩ := takesReading_iff.mp h
  cases hp : y.processed <;> simp [hostCycle, processAndTake, processesIn, hv, h, hp, exec_of_taken h]

theorem processAndTake_of_processed {y : System Store SensorId Err} (hp : y.processed = true) :
    processAndTake env y =
      .next { y with block := takeReading y.block, log := y.log ++ [.take], processed := false } := by
  simp [processAndTake, hp]

/-- A reading not yet processed: the persistence calls, what follows them, and the take, in this order. -/
theorem processAndTake_of_sample {y : System Store SensorId Err} {r : DecodedReading}
    (hp : y.processed = false) (hr : sampleReading y.block = .next r) :
    processAndTake env y = .next
      { block := takeReading y.block
        store := (persist env r y.store).store
        log := y.log ++ (persist env r y.store).actions ++
          afterPersistence env r (persist env r y.store).failure ++ [.take]
        processed := false } := by
  simp [processAndTake, processReading, hp, hr]

theorem processAndTake_block {y y' : System Store SensorId Err} (h : processAndTake env y = .next y') :
    y'.block = takeReading y.block := by
  unfold processAndTake at h
  cases ho : (if y.processed then .next y else processReading env y : Result (System Store SensorId Err)) with
  | next y₁ => rw [ho] at h; cases h; rfl
  | fault e => rw [ho] at h; cases h
  | refused r => rw [ho] at h; cases h

/-- Whatever the collaborator answers, a pending reading is served. -/
theorem processAndTake_next {y : System Store SensorId Err} (hs : BlockInv y.block) (hv : y.block.outValid = true) :
    ∃ y', processAndTake env y = .next y' := by
  obtain ⟨-, -, hheld, -⟩ := hs
  cases hp : y.processed with
  | true => exact ⟨_, processAndTake_of_processed env hp⟩
  | false =>
    obtain ⟨r, hr⟩ := exists_sampleReading_of_frameHeld hheld hv
    exact ⟨_, processAndTake_of_sample env hp hr⟩

/-! ### The serving of a reading -/

/-- Serving never fails, keeps the invariant and leaves nothing pending. -/
theorem serveReading_next (p : TakePlan) {y : System Store SensorId Err} (hs : BlockInv y.block) :
    ∃ y', serveReading env p y = .next y' ∧ BlockInv y'.block ∧ y'.block.inputs = y.block.inputs := by
  cases hv : y.block.outValid with
  | false => exact ⟨y, serveReading_of_empty env p hv, hs, rfl⟩
  | true =>
    obtain ⟨y', hy'⟩ := processAndTake_next env hs hv
    refine ⟨y', (serveReading_eq_processAndTake env p hv).trans hy', ?_⟩
    rw [processAndTake_block env hy']
    exact ⟨takeReading_blockInv hs hv, takeReading_inputs y.block⟩

theorem outValid_of_served {p : TakePlan} {y y' : System Store SensorId Err} (h : serveReading env p y = .next y') :
    y'.block.outValid = false := by
  cases hv : y.block.outValid with
  | false =>
    rw [serveReading_of_empty env p hv] at h
    cases h
    exact hv
  | true =>
    rw [serveReading_eq_processAndTake env p hv] at h
    rw [processAndTake_block env h, takeReading_outValid]

/-- A reading not yet processed, served with the outcome of its persistence calls. -/
theorem serveReading_of_persist (p : TakePlan) {y : System Store SensorId Err} {r : DecodedReading}
    {calls : List (HostAction SensorId Err)} {failure : Option Err} {st : Store} (hv : y.block.outValid = true)
    (hp : y.processed = false) (hr : sampleReading y.block = .next r)
    (hcalls : persist env r y.store = ⟨calls, failure, st⟩) :
    serveReading env p y = .next
      { block := takeReading y.block, store := st, log := y.log ++ calls ++ afterPersistence env r failure ++ [.take],
        processed := false } := by
  rw [serveReading_eq_processAndTake env p hv, processAndTake_of_sample env hp hr, hcalls]

end

/-- Settles O56: the calls of a sensor found and of one created, with the event and the take after them. -/
theorem servingOrder : Obligations.ServingOrder := by
  intro Store SensorId Err env p y r st₁ st₂ st₃ x hv hp hr hrecord
  refine ⟨fun hfind => ?_, fun hfind hcreate => ?_⟩
  · have hcalls := (persist_of_found hfind).trans (recordStep_of_ok _ hrecord)
    exact ⟨_, serveReading_of_persist env p hv hp hr hcalls, rfl, takeReading_outValid _,
      by simp [afterPersistence, readingEvent]⟩
  · have hcalls := (persist_of_created hfind hcreate).trans (recordStep_of_ok _ hrecord)
    exact ⟨_, serveReading_of_persist env p hv hp hr hcalls, rfl, takeReading_outValid _,
      by simp [afterPersistence, readingEvent]⟩

/-- Settles O57: in each of the four places the failed call is the last one, and the report and the take follow. -/
theorem persistenceFailureReported : Obligations.PersistenceFailureReported := by
  intro Store SensorId Err env p y r st₁ st₂ st x e calls hv hp hr hfail
  have hcalls : persist env r y.store = ⟨calls, some e, st⟩ := by
    rcases hfail with ⟨hfind, rfl⟩ | ⟨hfind, hcreate, rfl⟩ | ⟨hfind, hcreate, hrecord, rfl⟩ | ⟨hfind, hrecord, rfl⟩
    · exact persist_of_find_error hfind
    · exact persist_of_create_error hfind hcreate
    · exact (persist_of_created hfind hcreate).trans (recordStep_of_error _ hrecord)
    · exact (persist_of_found hfind).trans (recordStep_of_error _ hrecord)
  exact ⟨_, serveReading_of_persist env p hv hp hr hcalls, rfl, takeReading_outValid _,
    by simp [afterPersistence_some]⟩

section
variable {Store SensorId Err : Type} (env : HostEnv Store SensorId Err)

/-! ### One byte -/

/-- With nothing pending the cycle of an offered byte accepts it, and the host does nothing. -/
theorem hostCycle_byte (b : Byte) (ready now : Bool) {y : System Store SensorId Err} (hv : y.block.outValid = false) :
    hostCycle env { vector := driveVector (some b) ready, processNow := now } y =
      .next { y with block := acceptByte b y.block, processed := false } := by
  rw [hostCycle_of_empty env _ hv, exec_driveVector_byte b ready hv, andThen_next]

/-- Once a reading still pending is served, the byte is accepted and the reading it completes, if any, is served. -/
theorem onByte_of_served {p : BytePlan} (b : Byte) {y y₁ : System Store SensorId Err}
    (h : serveReading env p.pending y = .next y₁) :
    onByte env p b y =
      serveReading env p.completed { y₁ with block := acceptByte b y₁.block, processed := false } := by
  rw [onByte, h, andThen_next, hostCycle_byte env b p.ready false (outValid_of_served env h), andThen_next]

theorem onByte_of_empty (p : BytePlan) (b : Byte) {y : System Store SensorId Err} (hv : y.block.outValid = false) :
    onByte env p b y = serveReading env p.completed { y with block := acceptByte b y.block, processed := false } :=
  onByte_of_served env b (serveReading_of_empty env p.pending hv)

end

/-- Settles O54: a byte that completes nothing leaves nothing pending to serve, and a cycle with nothing pending moves
only the block. -/
theorem noActionWithoutCompletion : Obligations.NoActionWithoutCompletion := by
  refine ⟨fun Store SensorId Err env p b y y₁ y' hserve hres hbyte => ?_, fun Store SensorId Err env c y hv => ?_⟩
  · obtain ⟨-, -, -, hkeep⟩ := acceptByte_registers b y₁.block
    obtain ⟨hvalid, -⟩ := hkeep hres
    rw [onByte_of_served env b hserve,
      serveReading_of_empty env p.completed (hvalid.trans (outValid_of_served env hserve))] at hbyte
    cases hbyte
    refine ⟨rfl, rfl, fun hv => ?_⟩
    rw [serveReading_of_empty env p.pending hv] at hserve
    cases hserve
    rfl
  · obtain ⟨t, ht⟩ := exec_next (decode c.vector) y.block
    refine ⟨{ y with block := t, processed := false }, ?_, rfl, rfl, rfl⟩
    rw [hostCycle_of_empty env c hv, ht, andThen_next]

/-- Settles O55: under the invariant every reading can be sampled, so nothing stops the host, and every plan comes to
processing and taking the reading. -/
theorem hostAlwaysTakesReading : Obligations.HostAlwaysTakesReading := by
  refine ⟨fun Store SensorId Err env p b y hs => ?_, fun b => ⟨?_, ?_⟩, fun Store SensorId Err env p q y => ?_,
    fun Store SensorId Err env c y hs htake => ?_⟩
  · obtain ⟨y₁, hserve, hs₁, hin₁⟩ := serveReading_next env p.pending hs
    obtain ⟨y', hserve', hs', hin'⟩ := serveReading_next env p.completed
      (y := { y₁ with block := acceptByte b y₁.block, processed := false })
      (acceptByte_blockInv b hs₁ (outValid_of_served env hserve))
    have hempty := outValid_of_served env hserve'
    exact ⟨y', (onByte_of_served env b hserve).trans hserve', hs', hempty, inReady_of_empty hempty,
      hin'.trans ((acceptByte_inputs b y₁.block).trans hin₁)⟩
  · exact decode_driveVector (some b) true
  · exact decode_driveVector none true
  · cases hv : y.block.outValid with
    | false => rw [serveReading_of_empty env p hv, serveReading_of_empty env q hv]
    | true => rw [serveReading_eq_processAndTake env p hv, serveReading_eq_processAndTake env q hv]
  · obtain ⟨-, -, hheld, -⟩ := hs
    obtain ⟨hv, -⟩ := takesReading_iff.mp htake
    rw [hostCycle_eq_processAndTake env htake]
    cases hp : y.processed with
    | true => exact ⟨_, processAndTake_of_processed env hp, takeReading_outValid _, rfl, fun _ => ⟨rfl, rfl⟩, nofun⟩
    | false =>
      obtain ⟨r, hr⟩ := exists_sampleReading_of_frameHeld hheld hv
      exact ⟨_, processAndTake_of_sample env hp hr, takeReading_outValid _, rfl, nofun, fun _ => ⟨r, hr, rfl, rfl⟩⟩

/-! ### A frame, and the same frame again (R158) -/

section
variable {Store SensorId Err : Type} (env : HostEnv Store SensorId Err)

theorem onBytes_append (as bs : List (BytePlan × Byte)) (y : System Store SensorId Err) :
    onBytes env (as ++ bs) y = andThen (onBytes env as y) (onBytes env bs) := by
  induction as generalizing y with
  | nil => rfl
  | cons a as ih =>
    rw [List.cons_append, onBytes, onBytes, andThen_assoc]
    exact congrArg _ (funext ih)

theorem onBytes_singleton (p : BytePlan) (b : Byte) (y : System Store SensorId Err) :
    onBytes env [(p, b)] y = onByte env p b y := by
  rw [onBytes]
  cases onByte env p b y <;> rfl

/-- A byte that leaves an attempt open moves only the block. -/
theorem onByte_of_collecting (p : BytePlan) (b : Byte) {y : System Store SensorId Err} {bs : List Byte}
    (hv : y.block.outValid = false) (hc : Collecting (acceptByte b y.block) bs) :
    onByte env p b y = .next { y with block := acceptByte b y.block, processed := false } := by
  rw [onByte_of_empty env p b hv, serveReading_of_empty env p.completed hc.empty]

/-- Bytes that leave room for the eighth one are collected, and the host does nothing. -/
theorem Collecting.onBytes_interior {y : System Store SensorId Err} {bs : List Byte} (offers : List (BytePlan × Byte))
    (hc : Collecting y.block bs) (hne : bs ≠ []) (hle : bs.length + offers.length ≤ 7) :
    ∃ z, onBytes env offers y = .next z ∧ Collecting z.block (bs ++ offers.map Prod.snd) ∧
      z.store = y.store ∧ z.log = y.log := by
  induction offers generalizing y bs with
  | nil => exact ⟨y, rfl, by simpa using hc, rfl, rfl⟩
  | cons o os ih =>
    obtain ⟨p, b⟩ := o
    rw [List.length_cons] at hle
    have happend := hc.append b hne (by omega)
    obtain ⟨z, hz, hzc, hstore, hlog⟩ := ih (y := { y with block := acceptByte b y.block, processed := false })
      happend (by simp) (by simp; omega)
    refine ⟨z, ?_, by simpa using hzc, hstore, hlog⟩
    rw [onBytes, onByte_of_collecting env p b hc.empty happend, andThen_next, hz]

/-- The sentinel as eighth byte: the reading of the eight bytes is served at once (R106, R151). -/
theorem Collecting.onByte_close (p : BytePlan) {y : System Store SensorId Err} {f₀ f₁ f₂ f₃ f₄ f₅ f₆ : Byte}
    {calls : List (HostAction SensorId Err)} {failure : Option Err} {st : Store}
    (hc : Collecting y.block [f₀, f₁, f₂, f₃, f₄, f₅, f₆])
    (hcalls : persist env (sourceDecode f₀ f₁ f₂ f₃ f₄ f₅ f₆ Config.sentinel) y.store = ⟨calls, failure, st⟩) :
    onByte env p Config.sentinel y = .next
      { block := takeReading (acceptByte Config.sentinel y.block), store := st
        log := y.log ++ calls ++
          afterPersistence env (sourceDecode f₀ f₁ f₂ f₃ f₄ f₅ f₆ Config.sentinel) failure ++ [.take]
        processed := false } := by
  have hclose := hc.close rfl
  have hv : (acceptByte Config.sentinel y.block).outValid = true := by rw [hclose]
  have hr := sampledReadingIsSourceDecode (acceptByte Config.sentinel y.block) f₀ f₁ f₂ f₃ f₄ f₅ f₆ Config.sentinel hv
    (by rw [hclose]; rfl)
  rw [onByte_of_empty env p _ hc.empty]
  exact serveReading_of_persist env p.completed hv rfl hr hcalls

/-- The eight bytes of a frame, fed from the empty buffer with nothing pending: the frame's reading is served once, and
the buffer is empty again with nothing pending. -/
theorem onBytes_frame {y : System Store SensorId Err} {offers : List (BytePlan × Byte)} {t d q v h l : Byte}
    {calls : List (HostAction SensorId Err)} {failure : Option Err} {st : Store} (h0 : y.block.len = 0)
    (hv : y.block.outValid = false)
    (hoffers : offers.map Prod.snd = [Config.sentinel, t, d, q, v, h, l, Config.sentinel])
    (hcalls : persist env (sourceDecode Config.sentinel t d q v h l Config.sentinel) y.store = ⟨calls, failure, st⟩) :
    ∃ y', onBytes env offers y = .next y' ∧ y'.block.len = 0 ∧ y'.block.outValid = false ∧ y'.store = st ∧
      y'.log = y.log ++ calls ++
        afterPersistence env (sourceDecode Config.sentinel t d q v h l Config.sentinel) failure ++ [.take] := by
  obtain ⟨⟨p, b⟩, rest, rfl, rfl, hrest⟩ := List.map_eq_cons_iff.mp hoffers
  obtain ⟨interior, close, rfl, hinterior, hclose⟩ :=
    List.map_eq_append_iff.mp (hrest.trans (rfl : _ = [t, d, q, v, h, l] ++ [Config.sentinel]))
  obtain ⟨⟨p', b'⟩, rfl, rfl⟩ := List.map_eq_singleton_iff.mp hclose
  have hlength : interior.length = 6 := by simpa using congrArg List.length hinterior
  have hstart := collecting_start h0 hv
  obtain ⟨z, hz, hzc, hstore, hlog⟩ := Collecting.onBytes_interior env interior
    (y := { y with block := acceptByte Config.sentinel y.block, processed := false }) hstart (by simp)
    (by simp [hlength])
  rw [hinterior] at hzc
  have hlast := hzc.onByte_close env p' (hstore ▸ hcalls)
  have hrun : onBytes env ((p, Config.sentinel) :: (interior ++ [(p', Config.sentinel)])) y =
      onByte env p' Config.sentinel z := by
    rw [onBytes, onByte_of_collecting env p _ hv hstart, andThen_next, onBytes_append, hz, andThen_next,
      onBytes_singleton]
  refine ⟨_, hrun.trans hlast, ?_, takeReading_outValid _, rfl, by rw [hlog]⟩
  rw [takeReading_len, hzc.close rfl]

/-! ### A collaborator that remembers its sensors (R158, U6) -/

variable {env} {known : Store → Byte → Option SensorId}

/-- For a device without a sensor one is created, the reading is recorded for it, and the store knows it. -/
theorem HostEnv.Remembers.persist_of_unknown (henv : env.Remembers known) (r : DecodedReading) {st : Store}
    (hk : known st r.dispId = none) :
    ∃ x st', persist env r st = ⟨[.find r.dispId, .create r.dispId r.type (env.describeType r.typeLabel),
        .record x r.query r.data r.crcValid r.rawFrame], none, st'⟩ ∧ known st' r.dispId = some x := by
  have hfind := (henv.find r.dispId st).trans (congrArg Except.ok hk)
  obtain ⟨x, hcreate, hx⟩ := henv.create r.dispId r.type (env.describeType r.typeLabel)
    (env.findSensorByDeviceId r.dispId st).2
  refine ⟨x, _, (persist_of_created (Prod.ext hfind rfl) (Prod.ext hcreate rfl)).trans
    (recordStep_of_ok _ (Prod.ext (henv.record ..) rfl)), ?_⟩
  rw [henv.record_keeps, hx]

/-- For a device with a sensor the reading is recorded for it, and the store still knows it. -/
theorem HostEnv.Remembers.persist_of_known (henv : env.Remembers known) (r : DecodedReading) {st : Store} {x : SensorId}
    (hk : known st r.dispId = some x) :
    ∃ st', persist env r st = ⟨[.find r.dispId, .record x r.query r.data r.crcValid r.rawFrame], none, st'⟩ ∧
      known st' r.dispId = some x := by
  have hfind := (henv.find r.dispId st).trans (congrArg Except.ok hk)
  refine ⟨_, (persist_of_found (Prod.ext hfind rfl)).trans
    (recordStep_of_ok _ (Prod.ext (henv.record ..) rfl)), ?_⟩
  rw [henv.record_keeps, henv.find_keeps, hk]

end

/-- Settles O58: the first frame's reading creates the sensor, the second frame's finds it. -/
theorem sameFrameTwiceOneSensorTwoReadings : Obligations.SameFrameTwiceOneSensorTwoReadings := by
  rintro Store SensorId Err env known y t d q v h l r F offers henv h0 hv hk rfl rfl hoffers
  obtain ⟨first, second, rfl, hfirst, hsecond⟩ := List.map_eq_append_iff.mp hoffers
  obtain ⟨x, st₁, hcalls₁, hk₁⟩ := henv.persist_of_unknown (sourceDecode Config.sentinel t d q v h l Config.sentinel) hk
  obtain ⟨y₁, hrun₁, hlen₁, hv₁, rfl, hlog₁⟩ := onBytes_frame env h0 hv hfirst hcalls₁
  obtain ⟨st₂, hcalls₂, hk₂⟩ := henv.persist_of_known (sourceDecode Config.sentinel t d q v h l Config.sentinel) hk₁
  obtain ⟨y₂, hrun₂, -, hv₂, rfl, hlog₂⟩ := onBytes_frame env hlen₁ hv₁ hsecond hcalls₂
  refine ⟨y₂, x, ?_, hk₂, hv₂, ?_⟩
  · rw [onBytes_append, hrun₁, andThen_next, hrun₂]
  · rw [hlog₂, hlog₁]
    simp [afterPersistence, readingEvent, sourceDecode, Config.sentinel]

end Sys2Proof.Machine
end

section
/-! PROOFS. Exceptions: a step never faults and stops only on a contended edge (R170, R198), the state without an edge
(R181), and the priority of accept and take within one step (R174, R195). -/

namespace Sys2Proof.Machine

/-! ### How a step ends (R170, R181, R198) -/

theorem step_of_noEdge {s : State} (h : s.inputs = []) : step s = .next s := by
  simp [step, nextEdge, h]

theorem step_of_contended {s : State} {rest : List Edge} (h : s.inputs = .contended :: rest) :
    step s = .refused .multipleDrivers := by
  simp [step, nextEdge, h]

/-- No operation touches the edges still to come. -/
theorem exec_inputs {i : Instr} {s t : State} (h : exec i s = .next t) : t.inputs = s.inputs := by
  rcases exec_cases h with ⟨-, rfl⟩ | rfl | ⟨-, -, rfl⟩ | ⟨-, b, -, rfl⟩
  · rfl
  · rfl
  · rfl
  · exact acceptByte_inputs b s

/-- Settles O16: without an edge and on a driven edge there is a next state; a contended edge is refused by its name. -/
theorem stepStopsOnlyOnContention : Obligations.StepStopsOnlyOnContention := by
  intro s
  rcases hs : s.inputs with _ | ⟨_ | _, rest⟩
  case nil => simp [step_of_noEdge hs]
  case cons.vector v =>
    obtain ⟨t, ht⟩ := exec_next (decode v) { s with inputs := rest }
    simp [step_of_vector hs, ht]
  case cons.contended => simp [step_of_contended hs, eq_comm]

/-- Settles O15: the edge's operation has a next state and leaves the other edges. -/
theorem everyVectorHasNextState : Obligations.EveryVectorHasNextState := by
  intro s v rest
  obtain ⟨t, ht⟩ := exec_next (decode v) { s with inputs := rest }
  exact ⟨t, (step_of_vector rfl).trans ht, exec_inputs ht⟩

/-- Settles O17: the case of `step` with no edge to come. -/
theorem noEdgeKeepsState : Obligations.NoEdgeKeepsState := fun _ => step_of_noEdge

/-! ### Accept and take (R100, R137, R174, R195) -/

/-- While a reading is pending no byte is accepted, whatever is driven (R100). -/
theorem acceptedByte_of_pending {v : InputVector} {s : State} (hv : s.outValid = true) : acceptedByte v s = none := by
  simp [acceptedByte, inReady, hv]

/-- With nothing pending there is nothing to take (R137). -/
theorem takesReading_of_empty {v : InputVector} {s : State} (hv : s.outValid = false) : takesReading v s = false := by
  simp [takesReading, hv]

/-- A step that shows COMPLETE leaves the completed frame pending: only an accepted byte shows it (R25, R111). -/
theorem outValid_of_resCode_complete {v : InputVector} {s t : State} (h : exec (decode v) s = .next t)
    (hres : t.resCode = .complete) : t.outValid = true := by
  cases hacc : acceptedByte v s with
  | none => simp [exec_resCode_of_noAcceptedByte hacc h] at hres
  | some b =>
    obtain ⟨-, hv⟩ := acceptedByte_eq_some_iff.mp hacc
    obtain ⟨-, -, hcomplete, -⟩ := acceptByte_resultAgrees b hv
    rw [exec_of_acceptedByte hacc] at h
    cases h
    exact hcomplete hres

/-- Settles O29: an accept needs `out_valid = 0` and a take `out_valid = 1`; a take clears `out_valid`, a completion sets
it, and `in_ready` is read from it alone. -/
theorem acceptAndTakeNeverCoincide : Obligations.AcceptAndTakeNeverCoincide := by
  intro v s t h
  refine ⟨fun hacc => ?_, fun htake => ?_, fun hres => ?_, fun _ => rfl⟩
  · obtain ⟨b, hb⟩ := Option.isSome_iff_exists.mp hacc
    obtain ⟨-, hv⟩ := acceptedByte_eq_some_iff.mp hb
    exact ⟨takesReading_of_empty hv, hv⟩
  · obtain ⟨hv, -⟩ := takesReading_iff.mp htake
    rw [exec_of_taken htake] at h
    cases h
    exact ⟨acceptedByte_of_pending hv, inReady_of_empty (takeReading_outValid s)⟩
  · simp [inReady, outValid_of_resCode_complete h hres]

end Sys2Proof.Machine
end

section
/-! PROOFS. Reset and hazards: the state RESET leaves (R190), the machine's start (R192), and the fault of a host that
reads an output with no reading pending (R196). -/

namespace Sys2Proof.Machine

/-! ### RESET and the machine's start (R190, R192) -/

/-- Settles O1: RESET's meaning is `resetRegisters`, which writes every register and only the registers. -/
theorem resetGivesResetValues : Obligations.ResetGivesResetValues := exec_reset

/-- With the queue emptied, what `resetRegisters` leaves no longer depends on the state before. -/
theorem resetRegisters_emptyQueue (s : State) : { resetRegisters s with inputs := [] } = State.reset := rfl

/-- Settles O3: RESET's only next state is `resetRegisters s`, which differs from the start in its queue alone. -/
theorem machineStartsAfterReset : Obligations.MachineStartsAfterReset := by
  intro s t h
  rw [exec_reset] at h
  cases h
  exact resetRegisters_emptyQueue s

/-! ### Reading an output with no reading pending (R196) -/

@[simp] theorem hostRead_none {α : Type} (signal : OutSignal) :
    hostRead signal (none : Option α) = .fault (.bottomRead signal) := rfl

/-- Settles O51: with nothing pending each of the nine outputs is ⊥, and the host's read of ⊥ faults by its name. -/
theorem readingBottomOutputFaults : Obligations.ReadingBottomOutputFaults := by
  intro s hv
  simp only [outFrameBus_of_empty hv, outType_of_empty hv, outDispid_of_empty hv, outQuery_of_empty hv,
    outData_of_empty hv, outCrcAsserted_of_empty hv, outCrcComputed_of_empty hv, outCrcValid_of_empty hv,
    outTypeClass_of_empty hv, hostRead_none, and_self]

end Sys2Proof.Machine
end

section
/-! PROOFS. The invariant of the block's registers: it holds after a reset and every step keeps it (R21 to R25, R32). -/

namespace Sys2Proof.Machine

/-! ### The invariant over a reset and over a step that accepts no byte -/

/-- A reset meets the invariant from any state: no attempt is open and nothing is pending (R32). -/
theorem resetRegisters_blockInv (s : State) : BlockInv (resetRegisters s) :=
  ⟨fun i => by simp, startIsSentinel_of_len_zero rfl, fun i => by simp, nofun, fun _ => rfl, nofun, nofun, nofun⟩

/-- Settles O4: the reset state is what RESET leaves, with the queue `es`. -/
theorem resetStateMeetsInvariant : Obligations.ResetStateMeetsInvariant :=
  fun es => resetRegisters_blockInv { State.reset with inputs := es }

/-- A step that accepts no byte keeps the invariant: it writes `res_code` only, and NONE claims nothing (R112). -/
theorem noByte_blockInv {s : State} (hs : BlockInv s) : BlockInv (noByte s) := by
  obtain ⟨hfilled, hstart, hheld, hdelimited, hnoAttempt, -⟩ := hs
  exact ⟨hfilled, hstart, hheld, hdelimited, hnoAttempt, nofun, nofun, nofun⟩

/-! ### The invariant over an operation and over a step -/

/-- Every operation keeps the invariant; an accepted byte needs that nothing is pending, a take that something is. -/
theorem exec_blockInv {i : Instr} {s t : State} (hs : BlockInv s) (h : exec i s = .next t) : BlockInv t := by
  rcases exec_cases h with ⟨-, rfl⟩ | rfl | ⟨hv, -, rfl⟩ | ⟨hv, b, -, rfl⟩
  · exact resetRegisters_blockInv s
  · exact noByte_blockInv hs
  · exact takeReading_of_pending hv ▸ takeReading_blockInv hs hv
  · exact acceptByte_blockInv b hs hv

/-- The invariant says nothing about the edges still to come. -/
theorem blockInv_withInputs {s : State} (hs : BlockInv s) (es : List Edge) : BlockInv { s with inputs := es } := hs

/-- Settles O5: with no edge the state is kept, and on a driven edge the operation keeps the invariant. -/
theorem everyStepKeepsInvariant : Obligations.EveryStepKeepsInvariant := by
  intro s t hs h
  rcases step_cases h with ⟨-, rfl⟩ | ⟨v, rest, -, hexec⟩
  · exact hs
  · exact exec_blockInv (blockInv_withInputs hs rest) hexec

end Sys2Proof.Machine
end

section
/-! PROOFS. The encoding round trip, from the vector and from its number (R60, R61, R69), and the words of
the spec's table of vectors. -/

namespace Sys2Proof

/-! ### The number that writes a vector -/

/-- The number that writes a vector fits 11 bits, and decodes to the vector's operation. -/
theorem decodeWord_toNat (v : InputVector) : decodeWord v.toNat = .ok (decode v) := by
  have hwf : wordWf v.toNat = true := decide_eq_true v.isLt
  rw [decodeWord, if_pos hwf, BitVec.ofNat_toNat, BitVec.setWidth_eq]

/-- A table word of 11 bits or more holds the whole vector. -/
theorem decodeTableWord_toNat {nbits : Nat} (h : 11 ≤ nbits) (v : InputVector) :
    decodeTableWord nbits v.toNat = some (decode v) := by
  have hfits : v.toNat < 2 ^ nbits := v.isLt.trans_le (Nat.pow_le_pow_right two_pos h)
  rw [decodeTableWord, Nat.mod_eq_of_lt hfits, decodeWord_toNat]

/-- Settles O9: each form decodes the encoded vector, which `decode_encode` gives back. -/
theorem decodeOfEncodeIsIdentity : Obligations.DecodeOfEncodeIsIdentity := by
  intro i _
  have hround : decode (encode i) = i := Machine.decode_encode i
  refine ⟨hround, ?_, ?_, ?_⟩
  · rw [decodeWord_toNat, hround]
  · rw [decodeTableWord_toNat le_rfl, hround]
  · rw [decodeTableWord_toNat (by decide), hround]

/-- Settles O11: nine closed words of the table, each evaluated by `decode`. -/
theorem specWordsDecode : Obligations.SpecWordsDecode := by
  unfold Obligations.SpecWordsDecode
  decide

end Sys2Proof
end
